-- ==== Sys2Proof/Word.lean ====
section
/-! DEFINITION. The word types of the machine (spec/00_scope.md R2: XLEN = 8, ALEN = ILEN = 16) and the widths of
the fields of an instruction word (spec/30_encoding.md R46). All quantities are unsigned (R6). -/

namespace Sys2Proof

/-- A general register, a timer, a memory byte (R2, XLEN). -/
abbrev Byte := BitVec 8

/-- `I`, `PC`, a stack entry, an instruction word (R2, ALEN and ILEN). -/
abbrev Word := BitVec 16

/-- A 4-bit field: `N`, the opcode nibble, a key number (R46). -/
abbrev Nibble := BitVec 4

/-- A register number: the fields `X` and `Y`, always 0..15 (R46, R49). -/
abbrev RegIdx := BitVec 4

/-- The 12-bit address field `NNN` (R46). -/
abbrev Addr12 := BitVec 12

/-- The snapshot of the sixteen keys, bit k for key k (R5, R21). -/
abbrev Keys := BitVec 16

end Sys2Proof
end

