-- ==== Sys2Proof/Syntax.lean ====
section
/-! DEFINITION. The instruction set: one constructor per row of spec/opcode_table.json, with the fields that row
names (spec/30_encoding.md R46, R48). -/

namespace Sys2Proof

/-- The 34 instructions of R48. `x` and `y` are register numbers, `nn` an 8-bit immediate, `nnn` a 12-bit address,
`n` a row count. -/
inductive Instr where
  /-- `00E0`, R115. -/
  | cls
  /-- `00EE`, R72. -/
  | ret
  /-- `1NNN`, R75. -/
  | jp (nnn : Addr12)
  /-- `2NNN`, R76. -/
  | call (nnn : Addr12)
  /-- `3XNN`, R77. -/
  | seImm (x : RegIdx) (nn : Byte)
  /-- `4XNN`, R78. -/
  | sneImm (x : RegIdx) (nn : Byte)
  /-- `5XY0`, R79. -/
  | seReg (x y : RegIdx)
  /-- `6XNN`, R85. -/
  | ldImm (x : RegIdx) (nn : Byte)
  /-- `7XNN`, R86. -/
  | addImm (x : RegIdx) (nn : Byte)
  /-- `8XY0`, R87. -/
  | ldReg (x y : RegIdx)
  /-- `8XY1`, R88. -/
  | orReg (x y : RegIdx)
  /-- `8XY2`, R89. -/
  | andReg (x y : RegIdx)
  /-- `8XY3`, R90. -/
  | xorReg (x y : RegIdx)
  /-- `8XY4`, R91. -/
  | addReg (x y : RegIdx)
  /-- `8XY5`, R92. -/
  | sub (x y : RegIdx)
  /-- `8XY6`, R93. -/
  | shr (x y : RegIdx)
  /-- `8XY7`, R94. -/
  | subn (x y : RegIdx)
  /-- `8XYE`, R95. -/
  | shl (x y : RegIdx)
  /-- `9XY0`, R80. -/
  | sneReg (x y : RegIdx)
  /-- `ANNN`, R105. -/
  | ldI (nnn : Addr12)
  /-- `BNNN`, R73. The row has two overlapping fields: NNN and X = NNN[11:8] (log entry 18). -/
  | jpOff (x : RegIdx) (nnn : Addr12)
  /-- `CXNN`, R102. -/
  | rnd (x : RegIdx) (nn : Byte)
  /-- `DXYN`, R116. -/
  | drw (x y : RegIdx) (n : Nibble)
  /-- `EX9E`, R81. -/
  | skp (x : RegIdx)
  /-- `EXA1`, R82. -/
  | sknp (x : RegIdx)
  /-- `FX07`, R120. -/
  | ldVxDt (x : RegIdx)
  /-- `FX0A`, R123. -/
  | ldVxK (x : RegIdx)
  /-- `FX15`, R121. -/
  | ldDtVx (x : RegIdx)
  /-- `FX18`, R122. -/
  | ldStVx (x : RegIdx)
  /-- `FX1E`, R106. -/
  | addI (x : RegIdx)
  /-- `FX29`, R107. -/
  | ldF (x : RegIdx)
  /-- `FX33`, R108. -/
  | ldB (x : RegIdx)
  /-- `FX55`, R109. -/
  | stRegs (x : RegIdx)
  /-- `FX65`, R110. -/
  | ldRegs (x : RegIdx)
deriving DecidableEq, Repr

end Sys2Proof
end

