-- ==== Sys2Proof/Decode.lean ====
section
/-! DEFINITION. The instruction decoder (spec/40_decode_dispatch.md R60, R61, the selection of R63), total on any
word and any bytes; the encoder written from the patterns of spec/30_encoding.md R48; and the opcode map of R48 as a
table of masks and matches, to hold the decoder against. -/

namespace Sys2Proof

/-- The record `Decode(w)` of R60. -/
structure Fields where
  word : Word
  op : Nibble
  x : RegIdx
  y : RegIdx
  n : Nibble
  nn : Byte
  nnn : Addr12
deriving DecidableEq, Repr

/-- `Decode(w)` of R60: all seven fields, for every word (R61). -/
def fields (w : Word) : Fields where
  word := w
  op := w.extractLsb' 12 4
  x := w.extractLsb' 8 4
  y := w.extractLsb' 4 4
  n := w.extractLsb' 0 4
  nn := w.extractLsb' 0 8
  nnn := w.extractLsb' 0 12

/-- Class 8: the low nibble selects (R63). -/
def selectClass8 (d : Fields) : Option Instr :=
  match d.n.toNat with
  | 0x0 => some (.ldReg d.x d.y)
  | 0x1 => some (.orReg d.x d.y)
  | 0x2 => some (.andReg d.x d.y)
  | 0x3 => some (.xorReg d.x d.y)
  | 0x4 => some (.addReg d.x d.y)
  | 0x5 => some (.sub d.x d.y)
  | 0x6 => some (.shr d.x d.y)
  | 0x7 => some (.subn d.x d.y)
  | 0xE => some (.shl d.x d.y)
  | _ => none

/-- Class F: the low byte selects (R63). -/
def selectClassF (d : Fields) : Option Instr :=
  if d.nn = 0x07 then some (.ldVxDt d.x)
  else if d.nn = 0x0A then some (.ldVxK d.x)
  else if d.nn = 0x15 then some (.ldDtVx d.x)
  else if d.nn = 0x18 then some (.ldStVx d.x)
  else if d.nn = 0x1E then some (.addI d.x)
  else if d.nn = 0x29 then some (.ldF d.x)
  else if d.nn = 0x33 then some (.ldB d.x)
  else if d.nn = 0x55 then some (.stRegs d.x)
  else if d.nn = 0x65 then some (.ldRegs d.x)
  else none

/-- The nested selection of R63; `none` is an unimplemented word (R50, R66). -/
def select (d : Fields) : Option Instr :=
  match d.op.toNat with
  | 0x0 => if d.word = 0x00E0 then some .cls else if d.word = 0x00EE then some .ret else none
  | 0x1 => some (.jp d.nnn)
  | 0x2 => some (.call d.nnn)
  | 0x3 => some (.seImm d.x d.nn)
  | 0x4 => some (.sneImm d.x d.nn)
  | 0x5 => if d.n = 0 then some (.seReg d.x d.y) else none
  | 0x6 => some (.ldImm d.x d.nn)
  | 0x7 => some (.addImm d.x d.nn)
  | 0x8 => selectClass8 d
  | 0x9 => if d.n = 0 then some (.sneReg d.x d.y) else none
  | 0xA => some (.ldI d.nnn)
  | 0xB => some (.jpOff d.x d.nnn)
  | 0xC => some (.rnd d.x d.nn)
  | 0xD => some (.drw d.x d.y d.n)
  | 0xE => if d.nn = 0x9E then some (.skp d.x) else if d.nn = 0xA1 then some (.sknp d.x) else none
  | _ => selectClassF d

/-- The instruction a word is, if it is one. -/
def decodeWord (w : Word) : Option Instr := select (fields w)

/-- Why the decoder gives no instruction. -/
inductive DecodeReject where
  /-- Fewer than two bytes are left (R45: an instruction is exactly two). -/
  | truncated
  /-- The word matches no row of R48 (R50); the machine runs it as a no-op (R66). -/
  | unimplemented (w : Word)
deriving DecidableEq, Repr

/-- The word of two consecutive bytes: the byte at the lower address is bits 15..8 (R32). -/
def wordOfBytes (hi lo : Byte) : Word := hi ++ lo

/-- The decoder on bytes: it always consumes exactly two (R45) and gives back the rest. -/
def decode : List Byte → Except DecodeReject (Instr × List Byte)
  | hi :: lo :: rest =>
    match decodeWord (wordOfBytes hi lo) with
    | some i => .ok (i, rest)
    | none => .error (.unimplemented (wordOfBytes hi lo))
  | [_] => .error .truncated
  | [] => .error .truncated

/-- The word of an instruction: the pattern of its row in R48 with its fields put in. -/
def encodeWord : Instr → Word
  | .cls => 0x00E0
  | .ret => 0x00EE
  | .jp nnn => 0x1#4 ++ nnn
  | .call nnn => 0x2#4 ++ nnn
  | .seImm x nn => 0x3#4 ++ x ++ nn
  | .sneImm x nn => 0x4#4 ++ x ++ nn
  | .seReg x y => 0x5#4 ++ x ++ y ++ 0x0#4
  | .ldImm x nn => 0x6#4 ++ x ++ nn
  | .addImm x nn => 0x7#4 ++ x ++ nn
  | .ldReg x y => 0x8#4 ++ x ++ y ++ 0x0#4
  | .orReg x y => 0x8#4 ++ x ++ y ++ 0x1#4
  | .andReg x y => 0x8#4 ++ x ++ y ++ 0x2#4
  | .xorReg x y => 0x8#4 ++ x ++ y ++ 0x3#4
  | .addReg x y => 0x8#4 ++ x ++ y ++ 0x4#4
  | .sub x y => 0x8#4 ++ x ++ y ++ 0x5#4
  | .shr x y => 0x8#4 ++ x ++ y ++ 0x6#4
  | .subn x y => 0x8#4 ++ x ++ y ++ 0x7#4
  | .shl x y => 0x8#4 ++ x ++ y ++ 0xE#4
  | .sneReg x y => 0x9#4 ++ x ++ y ++ 0x0#4
  | .ldI nnn => 0xA#4 ++ nnn
  | .jpOff _ nnn => 0xB#4 ++ nnn
  | .rnd x nn => 0xC#4 ++ x ++ nn
  | .drw x y n => 0xD#4 ++ x ++ y ++ n
  | .skp x => 0xE#4 ++ x ++ 0x9E#8
  | .sknp x => 0xE#4 ++ x ++ 0xA1#8
  | .ldVxDt x => 0xF#4 ++ x ++ 0x07#8
  | .ldVxK x => 0xF#4 ++ x ++ 0x0A#8
  | .ldDtVx x => 0xF#4 ++ x ++ 0x15#8
  | .ldStVx x => 0xF#4 ++ x ++ 0x18#8
  | .addI x => 0xF#4 ++ x ++ 0x1E#8
  | .ldF x => 0xF#4 ++ x ++ 0x29#8
  | .ldB x => 0xF#4 ++ x ++ 0x33#8
  | .stRegs x => 0xF#4 ++ x ++ 0x55#8
  | .ldRegs x => 0xF#4 ++ x ++ 0x65#8

/-- The two bytes of a word as they lie in memory, the most significant first (R32). -/
def bytesOfWord (w : Word) : List Byte := [w.extractLsb' 8 8, w.extractLsb' 0 8]

/-- The bytes of an instruction. -/
def encode (i : Instr) : List Byte := bytesOfWord (encodeWord i)

/-- A row of the opcode map of R48. -/
structure OpcodeRow where
  mnemonic : String
  pattern : Word
  mask : Word
deriving DecidableEq, Repr

/-- The row of each instruction in R48, with the mnemonics of spec/opcode_table.json. -/
def Instr.row : Instr → OpcodeRow
  | .cls => ⟨"CLS", 0x00E0, 0xFFFF⟩
  | .ret => ⟨"RET", 0x00EE, 0xFFFF⟩
  | .jp _ => ⟨"JP", 0x1000, 0xF000⟩
  | .call _ => ⟨"CALL", 0x2000, 0xF000⟩
  | .seImm _ _ => ⟨"SE_IMM", 0x3000, 0xF000⟩
  | .sneImm _ _ => ⟨"SNE_IMM", 0x4000, 0xF000⟩
  | .seReg _ _ => ⟨"SE_REG", 0x5000, 0xF00F⟩
  | .ldImm _ _ => ⟨"LD_IMM", 0x6000, 0xF000⟩
  | .addImm _ _ => ⟨"ADD_IMM", 0x7000, 0xF000⟩
  | .ldReg _ _ => ⟨"LD_REG", 0x8000, 0xF00F⟩
  | .orReg _ _ => ⟨"OR", 0x8001, 0xF00F⟩
  | .andReg _ _ => ⟨"AND", 0x8002, 0xF00F⟩
  | .xorReg _ _ => ⟨"XOR", 0x8003, 0xF00F⟩
  | .addReg _ _ => ⟨"ADD_REG", 0x8004, 0xF00F⟩
  | .sub _ _ => ⟨"SUB", 0x8005, 0xF00F⟩
  | .shr _ _ => ⟨"SHR", 0x8006, 0xF00F⟩
  | .subn _ _ => ⟨"SUBN", 0x8007, 0xF00F⟩
  | .shl _ _ => ⟨"SHL", 0x800E, 0xF00F⟩
  | .sneReg _ _ => ⟨"SNE_REG", 0x9000, 0xF00F⟩
  | .ldI _ => ⟨"LD_I", 0xA000, 0xF000⟩
  | .jpOff _ _ => ⟨"JP_OFF", 0xB000, 0xF000⟩
  | .rnd _ _ => ⟨"RND", 0xC000, 0xF000⟩
  | .drw _ _ _ => ⟨"DRW", 0xD000, 0xF000⟩
  | .skp _ => ⟨"SKP", 0xE09E, 0xF0FF⟩
  | .sknp _ => ⟨"SKNP", 0xE0A1, 0xF0FF⟩
  | .ldVxDt _ => ⟨"LD_VX_DT", 0xF007, 0xF0FF⟩
  | .ldVxK _ => ⟨"LD_VX_K", 0xF00A, 0xF0FF⟩
  | .ldDtVx _ => ⟨"LD_DT_VX", 0xF015, 0xF0FF⟩
  | .ldStVx _ => ⟨"LD_ST_VX", 0xF018, 0xF0FF⟩
  | .addI _ => ⟨"ADD_I", 0xF01E, 0xF0FF⟩
  | .ldF _ => ⟨"LD_F", 0xF029, 0xF0FF⟩
  | .ldB _ => ⟨"LD_B", 0xF033, 0xF0FF⟩
  | .stRegs _ => ⟨"ST_REGS", 0xF055, 0xF0FF⟩
  | .ldRegs _ => ⟨"LD_REGS", 0xF065, 0xF0FF⟩

/-- The word `w` matches the row: `w & mask == match` (R48). -/
abbrev OpcodeRow.Matches (r : OpcodeRow) (w : Word) : Prop := w &&& r.mask = r.pattern

/-- One instruction of every row, in the order of R48. -/
def oneOfEachRow : List Instr :=
  [.cls, .ret, .jp 0, .call 0, .seImm 0 0, .sneImm 0 0, .seReg 0 0, .ldImm 0 0, .addImm 0 0, .ldReg 0 0,
   .orReg 0 0, .andReg 0 0] ++
  [.xorReg 0 0, .addReg 0 0, .sub 0 0, .shr 0 0, .subn 0 0, .shl 0 0, .sneReg 0 0, .ldI 0, .jpOff 0 0, .rnd 0 0,
   .drw 0 0 0, .skp 0] ++
  [.sknp 0, .ldVxDt 0, .ldVxK 0, .ldDtVx 0, .ldStVx 0, .addI 0, .ldF 0, .ldB 0, .stRegs 0, .ldRegs 0]

/-- The opcode map of R48: its 34 rows. -/
def opcodeTable : List OpcodeRow := oneOfEachRow.map Instr.row

/-- The instruction the decoder reads from a word of `nbits` bits numbered as spec/opcode_table.json numbers them:
the word is laid out as the hardware stores it, most significant byte first (R32), and given to `decode`. -/
def decodeTableWord (nbits w : Nat) : Option Instr :=
  match decode (bytesOfWord (BitVec.ofNat 16 (w % 2 ^ nbits))) with
  | .ok (i, _) => some i
  | .error _ => none

end Sys2Proof
end

