-- ==== Sys2Proof/Config.lean ====
section
/-! DEFINITION. What is fixed when the machine is built (spec/00_scope.md R2, R3; spec/10_state.md R24), the events
the host may raise (spec/00_scope.md R5), and the one free value of the model: the event an unconstrained host
raises next (spec/70_reset_and_hazards.md R157, R158). -/

namespace Sys2Proof

/-- MEM_SIZE of R2: the memory holds the addresses 0x000..0xFFF. -/
abbrev memSize : Nat := 0x1000

/-- ENTRY of R2: load address of the image and reset value of `PC`. -/
abbrev entryAddr : Nat := 0x200

/-- IMAGE_CAP of R2: 4096 - 0x200. -/
abbrev imageCap : Nat := 3584

/-- FONT_SIZE of R2: 16 glyphs of 5 bytes, from address 0. -/
abbrev fontSize : Nat := 80

/-- NREGS of R2. -/
abbrev numRegs : Nat := 16

/-- STACK_DEPTH of R2. -/
abbrev stackDepth : Nat := 12

/-- WIDTH of R2. -/
abbrev fbWidth : Nat := 64

/-- HEIGHT of R2. -/
abbrev fbHeight : Nat := 32

/-- The Extension Policy: the four independent flags of R3. -/
structure Policy where
  /-- `Q_LOGIC_VF`: OR, AND and XOR write 0 to VF afterwards. -/
  logicVf : Bool
  /-- `Q_SHIFT_VY`: the shifts shift V[Y]; otherwise V[X]. -/
  shiftVy : Bool
  /-- `Q_JUMP_VX`: `BNNN` adds V[X]; otherwise V[0]. -/
  jumpVx : Bool
  /-- `Q_MEM_INC`: `FX55` and `FX65` leave `I` advanced by X + 1. -/
  memInc : Bool
deriving DecidableEq, Repr

/-- What is fixed at construction and never changes: the policy (R3) and the 80 font bytes (R38), both parameters. -/
structure Config where
  policy : Policy
  font : Vector Byte fontSize
deriving DecidableEq, Repr

/-- The events of the interface, with their arguments (R5). -/
inductive HostEvent where
  /-- `Step(keys, rnd)`: one instruction step with this key snapshot and this random byte. -/
  | step (keys : Keys) (rnd : Byte)
  | tick
  | pause
  | resume
  | start
  | flush
  | reset
  /-- `Load(image)`: a byte sequence of any length; the machine refuses one over `imageCap`. -/
  | load (image : List Byte)
deriving DecidableEq, Repr, Inhabited

/-- The free value of the model. When `State.events` lists no event, the host raises this one: nothing is known of
it, so a claim about such a step holds for every event, every key snapshot and every random byte (R21, R102, R158).
The argument is the plain counter `State.draws`. Log entry 4. -/
opaque Config.hostEvent : Nat → HostEvent

end Sys2Proof
end

