-- ==== Sys2Proof/Machine/Presets.lean ====
section
/-! DEFINITION. The two presets of the Extension Policy (spec/00_scope.md R3), the default font table
(spec/20_memory.md R38) and the content of an address that no image or store has written (R25, R37). -/

namespace Sys2Proof

/-- BaseArchitecture: the preset (1, 1, 0, 1) of R3. -/
def Policy.base : Policy := ⟨true, true, false, true⟩

/-- ExtendedArchitecture: the preset (0, 0, 1, 0) of R3. -/
def Policy.extended : Policy := ⟨false, false, true, false⟩

/-- The default FONT of R38, 16 glyphs of 5 bytes. PRESUMED: the spec takes these bytes from general knowledge; safe
for every claim that leaves the font free, unsafe for a claim about what a glyph looks like (log entry 1). -/
def defaultFont : Vector Byte fontSize :=
  (#v[0xF0#8, 0x90, 0x90, 0x90, 0xF0,  0x20, 0x60, 0x20, 0x20, 0x70,
      0xF0, 0x10, 0xF0, 0x80, 0xF0,  0xF0, 0x10, 0xF0, 0x10, 0xF0] ++
   #v[0x90#8, 0x90, 0xF0, 0x10, 0x10,  0xF0, 0x80, 0xF0, 0x10, 0xF0,
      0xF0, 0x80, 0xF0, 0x90, 0xF0,  0xF0, 0x10, 0x20, 0x40, 0x40]) ++
  (#v[0xF0#8, 0x90, 0xF0, 0x90, 0xF0,  0xF0, 0x90, 0xF0, 0x10, 0xF0,
      0xF0, 0x90, 0xF0, 0x90, 0x90,  0xE0, 0x90, 0xE0, 0x90, 0xE0] ++
   #v[0xF0#8, 0x80, 0x80, 0x80, 0xF0,  0xE0, 0x90, 0x90, 0x90, 0xE0,
      0xF0, 0x80, 0xF0, 0x80, 0xF0,  0xF0, 0x80, 0xF0, 0x80, 0x80])

/-- The configuration of `State.reset`: BaseArchitecture (DESIGN CHOICE, log entry 2) and the default font. No
statement but the ones about `State.reset` rests on it: State carries the configuration. -/
def Config.default : Config := ⟨Policy.base, defaultFont⟩

/-- What an address reads as when memory lists nothing for it: the font at 0x000..0x04F, zero above (R25, R37). -/
def Config.background (c : Config) (a : Nat) : Byte := if h : a < fontSize then c.font[a] else 0

end Sys2Proof
end

