-- ==== Sys2Proof/Machine/State.lean ====
section
/-! DEFINITION. The state of the machine: every element of spec/10_state.md R10 to R23, the configuration of R24, and
the model's own record of the interface (spec/00_scope.md R5). Plain data. -/

namespace Sys2Proof.Machine

/-- The memory (R16, R30): the cells whose byte differs from `Config.background`, at strictly rising addresses. -/
abbrev Memory := List Host.Cell

/-- The framebuffer (R17): rows from the top, each a row of cells from the left. -/
abbrev Framebuffer := Vector (Vector Bool fbWidth) fbHeight

/-- The execution mode (R22). -/
inductive Mode where
  | running
  | paused
  | halted
deriving DecidableEq, Repr

/-- The four faults of the machine (spec/60_exceptions.md R130, R131). -/
inductive FaultKind where
  | stackOverflow
  | stackUnderflow
  | memoryFault
  | keyIndexFault
deriving DecidableEq, Repr

/-- `Unimplemented(word, address)`: what a `Step` reports of a word that is no instruction (R66). -/
structure Diag where
  word : Word
  address : Word
deriving DecidableEq, Repr

/-- What a `Load` reports to the host (spec/70_reset_and_hazards.md R152). -/
inductive LoadReport where
  | success
  | loadError
deriving DecidableEq, Repr

/-- Reasons a step ends in `Outcome.fault`: none. The spec describes the entry of all four faults of the machine
(R132), so a fault is a next state with `mode = halted`; every other event has a next state too (log entry 8, safe). -/
inductive Fault where
deriving DecidableEq, Repr

/-- Reasons a step ends in `Outcome.refused`. -/
inductive Refusal where
  /-- Raised by an arm of `exec` whose instruction has no meaning yet; no arm raises it. Safe. -/
  | notModelled (mnemonic : String)
deriving DecidableEq, Repr

/-- The state (R10 to R24), then the model's record of the interface. -/
structure State where
  /-- The four policy flags and the font: fixed at construction, never changed (R3, R24). -/
  config : Config
  /-- `IMAGE`: kept so that `Reset` can reload it, replaced only by a successful `Load` (R24). -/
  image : List Byte
  /-- `MEM` (R16). -/
  mem : Memory
  /-- `V[0]`..`V[15]` (R10); `V[15]` is VF (R11). -/
  v : Vector Byte numRegs
  /-- `I` (R12). -/
  i : Word
  /-- `PC` (R13): between events, the address of the next instruction. -/
  pc : Word
  /-- `SP` (R14): the number of valid stack entries, at most `stackDepth`. -/
  sp : Fin (stackDepth + 1)
  /-- `S` (R14). -/
  stack : Vector Word stackDepth
  /-- `DT` (R15). -/
  dt : Byte
  /-- `ST` (R15). -/
  st : Byte
  /-- `AUDIO` (R19). -/
  audio : Bool
  /-- `FB` (R17). -/
  fb : Framebuffer
  /-- `DIRTY` (R18). -/
  dirty : Bool
  /-- `KW_VALID` (R20). -/
  kwValid : Bool
  /-- `KW_KEY` (R20). -/
  kwKey : Nibble
  /-- `MODE` (R22). -/
  mode : Mode
  /-- `FCAUSE` (R23, R131): `none` is code 0. -/
  fcause : Option FaultKind
  /-- `FPC` (R23). -/
  fpc : Word
  /-- `FINFO` (R23). -/
  finfo : Word
  /-- The key snapshot sampled by the latest `Step` (R5, R21); the model's own field. -/
  keys : Keys
  /-- The random byte sampled by the latest `Step` (R5, R102); the model's own field. -/
  rnd : Byte
  /-- `DIAG` of the latest `Step` (R5, R66); the model's own field. -/
  diag : Option Diag
  /-- What the latest `Load` reported (R152); the model's own field. -/
  loadReport : Option LoadReport
  /-- The events the host is going to raise, oldest first; when empty the host is free (log entry 4). -/
  events : List HostEvent
  /-- How many free events have been drawn; the argument of `Config.hostEvent` (log entry 4). -/
  draws : Nat
deriving DecidableEq, Repr

/-- The machine right after `Reset` (R25, R150) with the configuration `Config.default` (log entries 1, 2), no image
loaded (log entry 3) and the interface fields at their neutral values (log entries 4 to 6). -/
def State.reset : State where
  config := Config.default
  image := []
  mem := []
  v := Vector.replicate numRegs 0
  i := 0
  pc := 0x200
  sp := 0
  stack := Vector.replicate stackDepth 0
  dt := 0
  st := 0
  audio := false
  fb := Vector.replicate fbHeight (Vector.replicate fbWidth false)
  dirty := false
  kwValid := false
  kwKey := 0
  mode := .running
  fcause := none
  fpc := 0
  finfo := 0
  keys := 0
  rnd := 0
  diag := none
  loadReport := none
  events := []
  draws := 0

end Sys2Proof.Machine
end

