-- ==== Sys2Proof/Machine/Memory.lean ====
section
/-! DEFINITION. Memory as a list of cells in canonical form over a background `bg`, what an unlisted address reads as
(spec/10_state.md R16; spec/20_memory.md R30, R34, R35, R37). Addresses are mathematical integers (R34). -/

namespace Sys2Proof.Machine

/-- The byte at an address: the listed one, else the background. -/
def Memory.read (bg : Nat → Byte) : Memory → Nat → Byte
  | [], a => bg a
  | (k, b) :: m, a => if k = a then b else Memory.read bg m a

/-- Store one byte, keeping the canonical form: a byte equal to the background is not listed. -/
def Memory.write (bg : Nat → Byte) (a : Nat) (b : Byte) : Memory → Memory
  | [] => if b = bg a then [] else [(a, b)]
  | (k, c) :: m =>
    if k < a then (k, c) :: Memory.write bg a b m
    else if k = a then (if b = bg a then m else (a, b) :: m)
    else if b = bg a then (k, c) :: m else (a, b) :: (k, c) :: m

/-- Store bytes at consecutive addresses, the first at `a`, in ascending order. -/
def Memory.writeBytes (bg : Nat → Byte) (a : Nat) : List Byte → Memory → Memory
  | [], m => m
  | b :: bs, m => Memory.writeBytes bg (a + 1) bs (Memory.write bg a b m)

/-- The memory that holds `bytes` from address `a` on and the background elsewhere. -/
def Memory.ofBytes (bg : Nat → Byte) (a : Nat) : List Byte → Memory
  | [] => []
  | b :: bs => if b = bg a then Memory.ofBytes bg (a + 1) bs else (a, b) :: Memory.ofBytes bg (a + 1) bs

/-- Canonical from `lo` on: addresses strictly rising, at least `lo`, inside the memory, no byte equal to the
background. -/
def Memory.wfFrom (bg : Nat → Byte) : Nat → Memory → Bool
  | _, [] => true
  | lo, (k, b) :: m => decide (lo ≤ k) && decide (k < memSize) && b != bg k && Memory.wfFrom bg (k + 1) m

/-- The canonical form of a memory. -/
def Memory.wf (bg : Nat → Byte) (m : Memory) : Bool := Memory.wfFrom bg 0 m

end Sys2Proof.Machine
end

