-- ==== Sys2Proof/Machine/Ops.lean ====
section
/-! DEFINITION. The named operations over registers, stack, memory and framebuffer, taking a fault, and the fetch.

Every meaning is given the state BEFORE the `Step`, with `pc` at the instruction (`pc0` of spec/00_scope.md R7): what
R132 discards is then never made, and every operand is read with the value it had when the `Step` began (R64). -/

namespace Sys2Proof.Machine

/-- The outcome type of a step. -/
abbrev Outcome := Host.Outcome State Fault Refusal

/-- `PC <- pc0 + 2`, made before the instruction executes (R62). -/
def State.advance (s : State) : State := { s with pc := s.pc + 2 }

/-- `PC <- target`. -/
def State.setPc (s : State) (a : Word) : State := { s with pc := a }

/-- Read a general register (R10). -/
def State.reg (s : State) (x : RegIdx) : Byte := s.v[x.toNat]'x.isLt

/-- Write a general register (R10): none is hardwired. -/
def State.setReg (s : State) (x : RegIdx) (b : Byte) : State := { s with v := s.v.set x.toNat b x.isLt }

/-- The register number of VF (R11). -/
def vf : RegIdx := 15

/-- A result and then its flag: V[X] first, VF second, so that with X = 15 the flag remains (R11, R64, R96). -/
def State.setRegFlag (s : State) (x : RegIdx) (r f : Byte) : State := (s.setReg x r).setReg vf f

/-- `I <- a` (R12). -/
def State.setI (s : State) (a : Word) : State := { s with i := a }

/-- The byte at an address of the memory (R34); the caller has checked the range. -/
def State.byteAt (s : State) (a : Nat) : Byte := Memory.read s.config.background s.mem a

/-- Store consecutive bytes from address `a` on (R35); the caller has checked the range. -/
def State.storeBytes (s : State) (a : Nat) (bs : List Byte) : State :=
  { s with mem := Memory.writeBytes s.config.background a bs s.mem }

/-- The lowest of the addresses `base`, ..., `base + len - 1` that lies above 0xFFF, if one does (R36, R44). -/
def firstOutOfRange (base len : Nat) : Option Nat :=
  if len = 0 ∨ base + len ≤ memSize then none else some (max base memSize)

/-- Fault entry (R132), from the state before the `Step`: halt and record the cause, the address of the faulting
instruction and the cause's value. Nothing else changes: nothing is saved on the stack and `PC` stays (R132). The
`DIAG` of a faulting `Step` is none because the `Step` set it so when it began. There is no return from a fault
(R139): only `Reset` and a successful `Load` leave Halted. -/
def State.raise (s : State) (k : FaultKind) (info : Word) : State :=
  { s with mode := .halted, fcause := some k, fpc := s.pc, finfo := info }

/-- Raise the MemoryFault of an access to `len` bytes from `base` on, or go on to `ok` (R36, R44, R136). `s` is the
state before the `Step`. -/
def State.guardRange (s : State) (base len : Nat) (ok : State) : State :=
  match firstOutOfRange base len with
  | none => ok
  | some a => s.raise .memoryFault (BitVec.ofNat 16 a)

/-- `Push(v)` (R70), then go on to the state `k` makes; `info` is the instruction word. `s` is the state before the
`Step`. -/
def State.push (s : State) (v : Word) (info : Word) (target : Word) : State :=
  if h : s.sp.val < stackDepth then
    { s with stack := s.stack.set s.sp.val v h, sp := ⟨s.sp.val + 1, Nat.succ_lt_succ h⟩, pc := target }
  else s.raise .stackOverflow info

/-- `PC <- Pop()` (R71, R72); `info` is the instruction word. `s` is the state before the `Step`. -/
def State.popPc (s : State) (info : Word) : State :=
  if h : 0 < s.sp.val then
    { s with
      sp := ⟨s.sp.val - 1, Nat.lt_of_le_of_lt (Nat.sub_le _ _) s.sp.isLt⟩
      pc := s.stack[s.sp.val - 1]'(by have := s.sp.isLt; omega) }
  else s.raise .stackUnderflow info

/-- The cell in row `y`, column `x` (R17); `false` outside the grid. -/
def Framebuffer.get (fb : Framebuffer) (y x : Nat) : Bool :=
  if h : y < fbHeight ∧ x < fbWidth then (fb[y]'h.1)[x]'h.2 else false

/-- Flip the cell in row `y`, column `x` (R17); outside the grid nothing is drawn. -/
def Framebuffer.toggle (fb : Framebuffer) (y x : Nat) : Framebuffer :=
  if h : y < fbHeight ∧ x < fbWidth then fb.set y ((fb[y]'h.1).set x (!(fb[y]'h.1)[x]'h.2) h.2) h.1 else fb

/-- Every cell dark. -/
def Framebuffer.blank : Framebuffer := Vector.replicate fbHeight (Vector.replicate fbWidth false)

/-- The cell of the state's framebuffer. -/
def State.pixel (s : State) (y x : Nat) : Bool := Framebuffer.get s.fb y x

/-- Fetch (R62, R32): the big-endian word at `PC`, or the lowest address of the two that is out of range. -/
def State.fetch (s : State) : Except Nat Word :=
  match firstOutOfRange s.pc.toNat 2 with
  | none => .ok (wordOfBytes (s.byteAt s.pc.toNat) (s.byteAt (s.pc.toNat + 1)))
  | some a => .error a

/-- The 2-bit `MODE` output (R22). -/
def Mode.code : Mode → BitVec 2
  | .running => 0
  | .paused => 1
  | .halted => 2

/-- The 3-bit cause code of R131. -/
def FaultKind.code : FaultKind → BitVec 3
  | .stackOverflow => 1
  | .stackUnderflow => 2
  | .memoryFault => 3
  | .keyIndexFault => 4

/-- The 3-bit `FCAUSE` output (R131): 0 while no fault is recorded. -/
def State.fcauseCode (s : State) : BitVec 3 :=
  match s.fcause with
  | none => 0
  | some k => k.code

end Sys2Proof.Machine
end

