-- ==== Sys2Proof/Machine/Flags.lean ====
section
/-! DEFINITION. Every flag value the spec computes (spec/10_state.md R11; spec/42_alu.md R96, R97): always the number 0
or 1, always from the values the instruction started with. The collision flag is computed by the drawing loop of
Machine/Display.lean (R116). -/

namespace Sys2Proof.Machine

/-- A flag is written as the number 0 or 1 (R96). -/
def flagByte (b : Bool) : Byte := if b then 1 else 0

/-- Carry out of the 8-bit addition: the true sum exceeds 255 (R91, R97). -/
def carryFlag (a b : Byte) : Byte := flagByte (decide (a.toNat + b.toNat > 255))

/-- No borrow in `a - b`: the minuend is at least the subtrahend (R92, R94, R97). -/
def noBorrowFlag (a b : Byte) : Byte := flagByte (decide (a.toNat ≥ b.toNat))

/-- The bit a right shift drops: bit 0 of the source before the shift (R93). -/
def shiftedOutRight (src : Byte) : Byte := flagByte (src.getLsbD 0)

/-- The bit a left shift drops: bit 7 of the source before the shift (R95). -/
def shiftedOutLeft (src : Byte) : Byte := flagByte (src.getLsbD 7)

/-- The policy-dependent flag of OR, AND and XOR: VF <- 0 when `Q_LOGIC_VF = 1`, else untouched (R88 to R90). -/
def State.logicFlag (s : State) (t : State) : State := if s.config.policy.logicVf then t.setReg vf 0 else t

end Sys2Proof.Machine
end

