-- ==== Sys2Proof/Machine/Operands.lean ====
section
/-! DEFINITION. The operand forms that are more than a register or an immediate: the policy-selected register of the
shifts and of `BNNN`, the addresses of block accesses, the coordinates and rows of a sprite, key numbers and the
policy-selected advance of `I`. Immediates are used as they stand, zero-extended (spec/30_encoding.md R49). -/

namespace Sys2Proof.Machine

/-- `NNN` as a 16-bit number (R49). -/
def zextAddr (nnn : Addr12) : Word := nnn.setWidth 16

/-- A byte as a 16-bit number. -/
def zextByte (b : Byte) : Word := b.setWidth 16

/-- The source of a shift: V[Y] when `Q_SHIFT_VY = 1`, else V[X] (R93, R95). -/
def State.shiftSource (s : State) (x y : RegIdx) : Byte := if s.config.policy.shiftVy then s.reg y else s.reg x

/-- The register `BNNN` adds: V[X] when `Q_JUMP_VX = 1`, else V[0] (R73). -/
def State.jumpOffset (s : State) (x : RegIdx) : Byte := if s.config.policy.jumpVx then s.reg x else s.reg 0

/-- The effective address of the k-th byte of a block access: `I + k`, a mathematical integer (R111). -/
def State.ea (s : State) (k : Nat) : Nat := s.i.toNat + k

/-- `I` after `FX55` and `FX65`: past the block when `Q_MEM_INC = 1`, else unchanged (R109, R110). -/
def State.blockEndI (s : State) (x : RegIdx) : Word :=
  if s.config.policy.memInc then BitVec.ofNat 16 (s.i.toNat + x.toNat + 1) else s.i

/-- The bytes `FX55` stores: V[0]..V[X], ascending (R109). -/
def State.regBlock (s : State) (x : RegIdx) : List Byte := s.v.toList.take (x.toNat + 1)

/-- The registers after `FX65`: V[k] from address `I + k` for k = 0..X, the rest untouched (R110). -/
def State.loadedRegs (s : State) (x : RegIdx) : Vector Byte numRegs :=
  Vector.ofFn fun k => if k.val ≤ x.toNat then s.byteAt (s.ea k.val) else s.v[k]

/-- The three decimal digits of a byte, hundreds first (R108; the order is PRESUMED by the spec, log entry 12). -/
def bcdDigits (b : Byte) : List Byte :=
  [BitVec.ofNat 8 (b.toNat / 100), BitVec.ofNat 8 (b.toNat / 10 % 10), BitVec.ofNat 8 (b.toNat % 10)]

/-- The left column of a sprite: V[X] mod 64 (R116). -/
def State.spriteCol (s : State) (x : RegIdx) : Nat := (s.reg x).toNat % fbWidth

/-- The top row of a sprite: V[Y] mod 32 (R116). -/
def State.spriteRow (s : State) (y : RegIdx) : Nat := (s.reg y).toNat % fbHeight

/-- The rows that are read and drawn: rows below the bottom edge are clipped (R116). -/
def State.spriteRows (s : State) (y : RegIdx) (n : Nibble) : Nat := min n.toNat (fbHeight - s.spriteRow y)

/-- `key(k)`: bit k of the snapshot of this `Step` (R7). -/
def State.keyDown (s : State) (k : Nat) : Bool := s.keys.getLsbD k

/-- The lowest-numbered pressed key, if one is down (R123; the choice is decision D19, log entry 13). -/
def lowestKey (keys : Keys) : Option Nibble :=
  ((List.range 16).find? fun k => keys.getLsbD k).map (BitVec.ofNat 4)

end Sys2Proof.Machine
end

