-- ==== Sys2Proof/Machine/Alu.lean ====
section
/-! DEFINITION. Register loads and ALU operations (spec/42_alu.md). `s` is the state before the `Step`; each ends with
`PC = pc0 + 2`, none accesses memory, none faults. -/

namespace Sys2Proof.Machine

/-- `6XNN`: `V[X] <- NN` (R85). -/
def execLdImm (x : RegIdx) (nn : Byte) (s : State) : Outcome := .next (s.advance.setReg x nn)

/-- `7XNN`: `V[X] <- (V[X] + NN) mod 256`, no flag (R86). -/
def execAddImm (x : RegIdx) (nn : Byte) (s : State) : Outcome := .next (s.advance.setReg x (s.reg x + nn))

/-- `8XY0`: `V[X] <- V[Y]` (R87). -/
def execLdReg (x y : RegIdx) (s : State) : Outcome := .next (s.advance.setReg x (s.reg y))

/-- `8XY1`: OR (R88). -/
def execOr (x y : RegIdx) (s : State) : Outcome := .next (s.logicFlag (s.advance.setReg x (s.reg x ||| s.reg y)))

/-- `8XY2`: AND (R89). -/
def execAnd (x y : RegIdx) (s : State) : Outcome := .next (s.logicFlag (s.advance.setReg x (s.reg x &&& s.reg y)))

/-- `8XY3`: XOR (R90). -/
def execXor (x y : RegIdx) (s : State) : Outcome := .next (s.logicFlag (s.advance.setReg x (s.reg x ^^^ s.reg y)))

/-- `8XY4`: add, VF = carry (R91). -/
def execAddReg (x y : RegIdx) (s : State) : Outcome :=
  .next (s.advance.setRegFlag x (s.reg x + s.reg y) (carryFlag (s.reg x) (s.reg y)))

/-- `8XY5`: `V[X] - V[Y]`, VF = no borrow (R92). -/
def execSub (x y : RegIdx) (s : State) : Outcome :=
  .next (s.advance.setRegFlag x (s.reg x - s.reg y) (noBorrowFlag (s.reg x) (s.reg y)))

/-- `8XY6`: shift right by one, VF = the bit shifted out (R93). -/
def execShr (x y : RegIdx) (s : State) : Outcome :=
  .next (s.advance.setRegFlag x (s.shiftSource x y >>> 1) (shiftedOutRight (s.shiftSource x y)))

/-- `8XY7`: `V[Y] - V[X]`, VF = no borrow (R94). -/
def execSubn (x y : RegIdx) (s : State) : Outcome :=
  .next (s.advance.setRegFlag x (s.reg y - s.reg x) (noBorrowFlag (s.reg y) (s.reg x)))

/-- `8XYE`: shift left by one, VF = the bit shifted out (R95). -/
def execShl (x y : RegIdx) (s : State) : Outcome :=
  .next (s.advance.setRegFlag x (s.shiftSource x y <<< 1) (shiftedOutLeft (s.shiftSource x y)))

/-- `CXNN`: `V[X] <- rnd & NN`, with the byte this `Step` sampled (R102). -/
def execRnd (x : RegIdx) (nn : Byte) (s : State) : Outcome := .next (s.advance.setReg x (s.rnd &&& nn))

end Sys2Proof.Machine
end

