-- ==== Sys2Proof/Machine/Control.lean ====
section
/-! DEFINITION. Control transfer (spec/41_control_flow.md): return, jump, call, jump with offset, the skips. `s` is the
state before the `Step`, `s.pc` its `pc0`. -/

namespace Sys2Proof.Machine

/-- The common rule of the skips (R74): over the next two bytes when the condition holds. -/
def State.skipIf (s : State) (c : Bool) : State := if c then s.setPc (s.pc + 2 + 2) else s.advance

/-- The common rule of the key skips (R81, R82): a key number above 15 is a KeyIndexFault, else skip when the key's
level is `level`. -/
def State.keySkip (s : State) (x : RegIdx) (level : Bool) : State :=
  if (s.reg x).toNat > 15 then s.raise .keyIndexFault (zextByte (s.reg x))
  else s.skipIf (s.keyDown (s.reg x).toNat == level)

/-- `00EE`: `PC <- Pop()` (R72). -/
def execRet (s : State) : Outcome := .next (s.popPc (encodeWord .ret))

/-- `1NNN`: `PC <- NNN` (R75). -/
def execJp (nnn : Addr12) (s : State) : Outcome := .next (s.setPc (zextAddr nnn))

/-- `2NNN`: push `pc0 + 2`, then `PC <- NNN` (R76). -/
def execCall (nnn : Addr12) (s : State) : Outcome :=
  .next (s.push (s.pc + 2) (encodeWord (.call nnn)) (zextAddr nnn))

/-- `BNNN`: `PC <- V[0] + NNN` or `V[X] + NNN`, 16 bits, not masked (R73). -/
def execJpOff (x : RegIdx) (nnn : Addr12) (s : State) : Outcome :=
  .next (s.setPc (zextByte (s.jumpOffset x) + zextAddr nnn))

/-- `3XNN`: skip if equal (R77; the polarity is PRESUMED by the spec, log entry 10). -/
def execSeImm (x : RegIdx) (nn : Byte) (s : State) : Outcome := .next (s.skipIf (s.reg x == nn))

/-- `4XNN`: skip if not equal (R78; log entry 10). -/
def execSneImm (x : RegIdx) (nn : Byte) (s : State) : Outcome := .next (s.skipIf (s.reg x != nn))

/-- `5XY0`: skip if the registers are equal (R79; log entry 10). -/
def execSeReg (x y : RegIdx) (s : State) : Outcome := .next (s.skipIf (s.reg x == s.reg y))

/-- `9XY0`: skip if the registers differ (R80; log entry 10). -/
def execSneReg (x y : RegIdx) (s : State) : Outcome := .next (s.skipIf (s.reg x != s.reg y))

/-- `EX9E`: skip if key V[X] is down (R81). -/
def execSkp (x : RegIdx) (s : State) : Outcome := .next (s.keySkip x true)

/-- `EXA1`: skip if key V[X] is up (R82). -/
def execSknp (x : RegIdx) (s : State) : Outcome := .next (s.keySkip x false)

end Sys2Proof.Machine
end

