-- ==== Sys2Proof/Machine/Display.lean ====
section
/-! DEFINITION. Display instructions (spec/44_display.md): clear, and the sprite drawing loop of R116 as the spec
writes it, row by row and column by column. -/

namespace Sys2Proof.Machine

/-- What the drawing loop carries: the framebuffer and whether a set pixel has been cleared (R116). -/
structure Canvas where
  fb : Framebuffer
  hit : Bool
deriving DecidableEq, Repr

/-- One sprite bit at row `y`, column `x`: a column right of the edge is clipped; a 1 toggles its pixel and records a
collision when the pixel was set; a 0 leaves it (R116, R117). -/
def Canvas.plot (k : Canvas) (y x : Nat) (bit : Bool) : Canvas :=
  if bit ∧ x < fbWidth then ⟨k.fb.toggle y x, k.hit || k.fb.get y x⟩ else k

/-- One row byte: column `x0 + c` takes bit `7 - c` (R117; the bit order is PRESUMED by the spec, log entry 11). -/
def Canvas.drawRow (k : Canvas) (y x0 : Nat) (b : Byte) : Canvas :=
  (List.range 8).foldl (fun k c => k.plot y (x0 + c) (b.getLsbD (7 - c))) k

/-- The rows of a sprite, the byte of row r at `base + r` (R116). -/
def State.drawSprite (s : State) (x0 y0 rows : Nat) : Canvas :=
  (List.range rows).foldl (fun k r => k.drawRow (y0 + r) x0 (s.byteAt (s.ea r))) ⟨s.fb, false⟩

/-- `00E0`: every cell 0, `DIRTY` set (R115). -/
def execCls (s : State) : Outcome := .next { s.advance with fb := Framebuffer.blank, dirty := true }

/-- The state after the drawing of `DXYN`: the framebuffer, the collision flag in VF, `DIRTY` set (R116). -/
def State.drawn (s : State) (k : Canvas) : State :=
  { s.advance.setReg vf (flagByte k.hit) with fb := k.fb, dirty := true }

/-- `DXYN` (R116): the coordinates are read before VF is written; only the rows that are drawn are read and checked. -/
def execDrw (x y : RegIdx) (n : Nibble) (s : State) : Outcome :=
  .next (s.guardRange (s.ea 0) (s.spriteRows y n)
    (s.drawn (s.drawSprite (s.spriteCol x) (s.spriteRow y) (s.spriteRows y n))))

end Sys2Proof.Machine
end

