-- ==== Sys2Proof/Machine/Index.lean ====
section
/-! DEFINITION. Index register and memory instructions (spec/43_index_memory.md). `s` is the state before the `Step`;
all addresses are checked before anything is written (spec/20_memory.md R44). -/

namespace Sys2Proof.Machine

/-- `ANNN`: `I <- NNN` (R105). -/
def execLdI (nnn : Addr12) (s : State) : Outcome := .next (s.advance.setI (zextAddr nnn))

/-- `FX1E`: `I <- (I + V[X]) mod 65536`, no flag (R106). -/
def execAddI (x : RegIdx) (s : State) : Outcome := .next (s.advance.setI (s.i + zextByte (s.reg x)))

/-- `FX29`: `I <- V[X] * 5`, no mask (R107). -/
def execLdF (x : RegIdx) (s : State) : Outcome := .next (s.advance.setI (BitVec.ofNat 16 ((s.reg x).toNat * 5)))

/-- `FX33`: the decimal digits of V[X] at `I`, `I + 1`, `I + 2` (R108). -/
def execLdB (x : RegIdx) (s : State) : Outcome :=
  .next (s.guardRange (s.ea 0) 3 (s.advance.storeBytes (s.ea 0) (bcdDigits (s.reg x))))

/-- `FX55`: V[0]..V[X] to memory from `I` on, then the policy's advance of `I` (R109). -/
def execStRegs (x : RegIdx) (s : State) : Outcome :=
  .next (s.guardRange (s.ea 0) (x.toNat + 1)
    ((s.advance.storeBytes (s.ea 0) (s.regBlock x)).setI (s.blockEndI x)))

/-- `FX65`: V[0]..V[X] from memory from `I` on, then the policy's advance of `I` (R110). -/
def execLdRegs (x : RegIdx) (s : State) : Outcome :=
  .next (s.guardRange (s.ea 0) (x.toNat + 1)
    { s.advance with v := s.loadedRegs x, i := s.blockEndI x })

end Sys2Proof.Machine
end

