-- ==== Sys2Proof/Machine/Timers.lean ====
section
/-! DEFINITION. Timer instructions and the key wait (spec/45_timers_keys.md). `s` is the state before the `Step`. -/

namespace Sys2Proof.Machine

/-- `FX07`: `V[X] <- DT` (R120). -/
def execLdVxDt (x : RegIdx) (s : State) : Outcome := .next (s.advance.setReg x s.dt)

/-- `FX15`: `DT <- V[X]` (R121). -/
def execLdDtVx (x : RegIdx) (s : State) : Outcome := .next { s.advance with dt := s.reg x }

/-- `FX18`: `ST <- V[X]`; `AUDIO` waits for the next `Tick` (R122). -/
def execLdStVx (x : RegIdx) (s : State) : Outcome := .next { s.advance with st := s.reg x }

/-- The key wait when no key is captured yet: capture the lowest key that is down, if one is; `PC` stays `pc0`, so
that the same instruction executes again (R123). -/
def State.keyCapture (s : State) : State :=
  match lowestKey s.keys with
  | some k => { s with kwKey := k, kwValid := true }
  | none => s

/-- The key wait when a key is captured: wait on while it is down, and when it is up deliver its number (R123). -/
def State.keyRelease (s : State) (x : RegIdx) : State :=
  if s.keyDown s.kwKey.toNat then s
  else { s.advance.setReg x (s.kwKey.setWidth 8) with kwValid := false }

/-- `FX0A`: wait for a key press and the release of that key (R123). Every `Step` of it completes. -/
def execLdVxK (x : RegIdx) (s : State) : Outcome := .next (if s.kwValid then s.keyRelease x else s.keyCapture)

end Sys2Proof.Machine
end

