-- ==== Sys2Proof/Machine/Events.lean ====
section
/-! DEFINITION. The events of the interface (spec/00_scope.md R5), each one atomic transition (R4): `Step`
(spec/40_decode_dispatch.md R62, R66), `Tick` (spec/45_timers_keys.md R125), `Pause`, `Resume`, `Start`
(spec/60_exceptions.md R141 to R143), `Flush` (spec/44_display.md R118), `Reset` and `Load`
(spec/70_reset_and_hazards.md R150, R152). -/

namespace Sys2Proof.Machine

/-- A `Step` begins: the inputs are sampled and `DIAG <- None` (R5, R62). -/
def State.beginStep (s : State) (keys : Keys) (rnd : Byte) : State :=
  { s with keys := keys, rnd := rnd, diag := none }

/-- An unimplemented word: report it, keep the advanced `PC`, change nothing else (R66). -/
def State.unimplemented (s : State) (w : Word) : State := { s.advance with diag := some ⟨w, s.pc⟩ }

/-- Fetch, decode, execute, from a state whose `Step` has begun (R62, R63). -/
def State.fetchExecute (s : State) : Outcome :=
  match s.fetch with
  | .error a => .next (s.raise .memoryFault (BitVec.ofNat 16 a))
  | .ok w =>
    match decodeWord w with
    | some i => exec i s
    | none => .next (s.unimplemented w)

/-- `Step(keys, rnd)` (R62): outside Running no state changes. -/
def doStep (keys : Keys) (rnd : Byte) (s : State) : Outcome :=
  if s.mode = .running then (s.beginStep keys rnd).fetchExecute else .next (s.beginStep keys rnd)

/-- A timer is decremented by one and floored at zero (R125). -/
def countDown (t : Byte) : Byte := if t.toNat > 0 then t - 1 else t

/-- `Tick` (R125): `AUDIO` samples `ST` before the decrement; outside Running no state changes. -/
def doTick (s : State) : State :=
  if s.mode = .running then
    { s with audio := decide (s.st.toNat > 0), dt := countDown s.dt, st := countDown s.st }
  else s

/-- `Pause`: Running to Paused, otherwise nothing (R141). -/
def doPause (s : State) : State := if s.mode = .running then { s with mode := .paused } else s

/-- `Resume`: Paused to Running, otherwise nothing (R142). -/
def doResume (s : State) : State := if s.mode = .paused then { s with mode := .running } else s

/-- `Start` changes no state (R143). -/
def doStart (s : State) : State := s

/-- `Flush`, in every mode: the host has read `FB` and `AUDIO`; `DIRTY <- 0` (R118). -/
def doFlush (s : State) : State := { s with dirty := false }

/-- `Reset`, in every mode (R150): every element of state at its value of R25; `IMAGE` and the configuration stay. -/
def doReset (s : State) : State :=
  { s with
    mem := Memory.ofBytes s.config.background entryAddr s.image
    v := Vector.replicate numRegs 0
    i := 0
    pc := BitVec.ofNat 16 entryAddr
    sp := 0
    stack := Vector.replicate stackDepth 0
    dt := 0
    st := 0
    audio := false
    fb := Framebuffer.blank
    dirty := false
    kwValid := false
    kwKey := 0
    mode := .running
    fcause := none
    fpc := 0
    finfo := 0 }

/-- `Load(image)`, in every mode (R152): too long an image is reported and changes nothing; any other replaces
`IMAGE` and resets. -/
def doLoad (image : List Byte) (s : State) : State :=
  if image.length > imageCap then { s with loadReport := some .loadError }
  else { doReset { s with image := image } with loadReport := some .success }

/-- Perform one event. -/
def perform (e : HostEvent) (s : State) : Outcome :=
  match e with
  | .step keys rnd => doStep keys rnd s
  | .tick => .next (doTick s)
  | .pause => .next (doPause s)
  | .resume => .next (doResume s)
  | .start => .next (doStart s)
  | .flush => .next (doFlush s)
  | .reset => .next (doReset s)
  | .load image => .next (doLoad image s)

/-- The event the host raises next: the oldest of the list, or a free one when the list is empty (log entry 4). -/
def State.nextEvent (s : State) : HostEvent :=
  match s.events with
  | [] => Config.hostEvent s.draws
  | e :: _ => e

/-- The state once that event is taken from the host. -/
def State.takeEvent (s : State) : State :=
  match s.events with
  | [] => { s with draws := s.draws + 1 }
  | _ :: es => { s with events := es }

/-- The word of an instruction stored where the next `Step` fetches, and the next event a `Step`: `PC` is left alone
unless the two bytes there do not both exist, the mode is Running with no fault recorded, and a `Step` with the
inputs held in the state stands before the pending events (log entry 17). -/
def State.placeWord (s : State) (w : Word) : State :=
  let pc : Word := if s.pc.toNat + 2 ≤ memSize then s.pc else BitVec.ofNat 16 entryAddr
  let t := s.storeBytes pc.toNat (bytesOfWord w)
  { t with
    pc := pc
    mode := .running
    fcause := if s.mode = .halted then none else s.fcause
    fpc := if s.mode = .halted then 0 else s.fpc
    finfo := if s.mode = .halted then 0 else s.finfo
    events := .step s.keys s.rnd :: s.events }

end Sys2Proof.Machine
end

