-- ==== Sys2Proof/Machine/Step.lean ====
section
/-! DEFINITION. One step of the machine: the host's next event, performed (spec/00_scope.md R4, R5); and the placing of
one instruction where the next `Step` fetches. -/

namespace Sys2Proof.Machine

/-- One step: take the host's next event and perform it. -/
def step (s : State) : Host.Outcome State Fault Refusal := perform s.nextEvent s.takeEvent

/-- `s` with the instruction of `nbits` bits `w` where the very next step fetches and runs it (log entry 17). -/
def State.withFetchWord (s : State) (nbits w : Nat) : State := s.placeWord (BitVec.ofNat 16 (w % 2 ^ nbits))

end Sys2Proof.Machine
end

