-- ==== Sys2Proof/Safety.lean ====
section
/-! DEFINITION. What a sound state is and what a safe run is, in the terms the statements use. -/

namespace Sys2Proof.Machine

/-- No fault is recorded: what a claim about a correct program takes as a premise or proves
(spec/93_implementation_defined.md U1 to U4). -/
abbrev State.noFault (s : State) : Prop := s.fcause = none

/-- The invariant of the machine: what the spec says of every state a run can reach, from `Reset` on. -/
structure State.Inv (s : State) : Prop where
  /-- The memory is in canonical form, so equal memories are equal data. -/
  memWf : Memory.wf s.config.background s.mem = true
  /-- `IMAGE` has length 0..3584 (R24, R152). -/
  imageFits : s.image.length ≤ imageCap
  /-- A fault is recorded exactly in Halted (R23). -/
  faultIffHalted : s.fcause ≠ none ↔ s.mode = .halted
  /-- With no fault recorded the other two registers of the record are 0 (R23, R131). -/
  noFaultRecord : s.fcause = none → s.fpc = 0 ∧ s.finfo = 0
  /-- `PC` never wraps: the largest value an instruction can write is 0x10FE (R13). -/
  pcBound : s.pc.toNat ≤ 0x10FE
  /-- A valid stack entry is the address after a call that was fetched (R14, R76). -/
  stackBound : ∀ k (h : k < stackDepth), k < s.sp.val → (s.stack[k]'h).toNat ≤ 0x1000
  /-- While a key is captured, `PC` is the address of the key-wait instruction (R20). -/
  keyWait : s.kwValid = true → ∃ w x, s.fetch = .ok w ∧ decodeWord w = some (.ldVxK x)

end Sys2Proof.Machine
end

