-- ==== Sys2Proof/Certificates/Slice0/Obligations.lean ====
section
/-! DEFINITION. The statements for the provers. The helpers below restate the spec's own tables and pictures in plain
arithmetic, apart from the model's operations; a statement gives the whole next state, so that what it does not name is
unchanged. -/

namespace Sys2Proof.Claim

open Sys2Proof.Machine

/-- The words with `w & mask == match` are exactly the words the decoder reads as the instruction `mk` builds from the
fields of the word (spec/30_encoding.md R48). -/
def EncodedAs (mask pattern : Word) (mk : Fields → Instr) : Prop :=
  ∀ w : Word, w &&& mask = pattern ↔ decodeWord w = some (mk (fields w))

/-- The state with the host's event taken: only the model's own record of the host has changed. -/
def eventTaken (s : State) : State :=
  { s with events := s.takeEvent.events, draws := s.takeEvent.draws }

/-- The state in which a `Step` has begun: the event taken, the inputs sampled, `DIAG` none. -/
def stepBegun (s : State) (keys : Keys) (rnd : Byte) : State :=
  { s with events := s.takeEvent.events, draws := s.takeEvent.draws, keys := keys, rnd := rnd, diag := none }

/-- The state a fault leaves (spec/60_exceptions.md R132). -/
def faulted (s : State) (k : FaultKind) (info : Nat) : State :=
  { s with mode := .halted, fcause := some k, fpc := s.pc, finfo := BitVec.ofNat 16 info }

/-- The table of spec/60_exceptions.md R131 for the instructions: the fault and its `FINFO`, if the instruction faults
in this state. -/
def faultOf (i : Instr) (s : State) : Option (FaultKind × Nat) :=
  match i with
  | .call nnn => if s.sp.val = 12 then some (.stackOverflow, 0x2000 + nnn.toNat) else none
  | .ret => if s.sp.val = 0 then some (.stackUnderflow, 0x00EE) else none
  | .drw _ y n =>
    let rows := min n.toNat (32 - (s.reg y).toNat % 32)
    if 0 < rows ∧ s.i.toNat + rows - 1 > 0xFFF then some (.memoryFault, max s.i.toNat 0x1000) else none
  | .ldB _ => if s.i.toNat + 2 > 0xFFF then some (.memoryFault, max s.i.toNat 0x1000) else none
  | .stRegs x => if s.i.toNat + x.toNat > 0xFFF then some (.memoryFault, max s.i.toNat 0x1000) else none
  | .ldRegs x => if s.i.toNat + x.toNat > 0xFFF then some (.memoryFault, max s.i.toNat 0x1000) else none
  | .skp x => if (s.reg x).toNat > 15 then some (.keyIndexFault, (s.reg x).toNat) else none
  | .sknp x => if (s.reg x).toNat > 15 then some (.keyIndexFault, (s.reg x).toNat) else none
  | _ => none

/-- The fault of a `Step` in Running, if it faults: the fetch first, then the instruction's (R131, R133). -/
def stepFault (s : State) : Option (FaultKind × Nat) :=
  if s.pc.toNat > 0xFFF then some (.memoryFault, s.pc.toNat)
  else if s.pc.toNat + 1 > 0xFFF then some (.memoryFault, s.pc.toNat + 1)
  else match decodeWord (wordOfBytes (s.byteAt s.pc.toNat) (s.byteAt (s.pc.toNat + 1))) with
    | some i => faultOf i s
    | none => none

/-- The registers an instruction may write (spec/10_state.md R11): its destination, and VF where it is the flag. -/
def mayWriteReg (i : Instr) (r : RegIdx) : Prop :=
  match i with
  | .ldImm x _ => r = x
  | .addImm x _ => r = x
  | .ldReg x _ => r = x
  | .orReg x _ => r = x ∨ r = 15
  | .andReg x _ => r = x ∨ r = 15
  | .xorReg x _ => r = x ∨ r = 15
  | .addReg x _ => r = x ∨ r = 15
  | .sub x _ => r = x ∨ r = 15
  | .shr x _ => r = x ∨ r = 15
  | .subn x _ => r = x ∨ r = 15
  | .shl x _ => r = x ∨ r = 15
  | .rnd x _ => r = x
  | .drw _ _ _ => r = 15
  | .ldVxDt x => r = x
  | .ldVxK x => r = x
  | .ldRegs x => r.toNat ≤ x.toNat
  | _ => False

/-- The instructions that leave `PC` otherwise than at `pc0 + 2` (the table of spec/10_state.md R13). -/
def isControl : Instr → Prop
  | .jp _ => True
  | .call _ => True
  | .ret => True
  | .jpOff _ _ => True
  | .seImm _ _ => True
  | .sneImm _ _ => True
  | .seReg _ _ => True
  | .sneReg _ _ => True
  | .skp _ => True
  | .sknp _ => True
  | .ldVxK _ => True
  | _ => False

/-- The sprite bit that `DXYN` puts on the cell in row `py`, column `px`: false off the sprite and on its clipped rows
(spec/44_display.md R116, R117). -/
def spriteBit (s : State) (x y : RegIdx) (n : Nibble) (py px : Nat) : Bool :=
  let x0 := (s.reg x).toNat % 64
  let y0 := (s.reg y).toNat % 32
  decide (y0 ≤ py ∧ py < y0 + min n.toNat (32 - y0) ∧ x0 ≤ px ∧ px < x0 + 8) &&
    (s.byteAt (s.i.toNat + (py - y0))).getLsbD (7 - (px - x0))

/-- The rows `DXYN` reads all lie in memory. -/
def spriteInMemory (s : State) (y : RegIdx) (n : Nibble) : Prop :=
  min n.toNat (32 - (s.reg y).toNat % 32) = 0 ∨ s.i.toNat + min n.toNat (32 - (s.reg y).toNat % 32) ≤ 0x1000

/-- Instructions executed one after the other. -/
def execAll : List Instr → State → Outcome
  | [], s => .next s
  | i :: is, s =>
    match exec i s with
    | .next t => execAll is t
    | .fault f => .fault f
    | .refused r => .refused r

/-- Two states a program cannot tell apart (spec/10_state.md R26): they agree on everything but `DIRTY`, `AUDIO`, `ST`,
`MODE`, the fault record, the stack entries at index `SP` and above, and the model's record of the host other than the
sampled inputs. -/
def sameToProgram (s t : State) : Prop :=
  t.config = s.config ∧ t.mem = s.mem ∧ t.v = s.v ∧ t.i = s.i ∧ t.pc = s.pc ∧ t.sp = s.sp ∧
  (∀ k, k < s.sp.val → t.stack[k]? = s.stack[k]?) ∧ t.dt = s.dt ∧ t.fb = s.fb ∧
  t.kwValid = s.kwValid ∧ t.kwKey = s.kwKey ∧ t.keys = s.keys ∧ t.rnd = s.rnd

end Sys2Proof.Claim

open Sys2Proof Sys2Proof.Machine Sys2Proof.Claim

/-! ### Encoding -/

/-- Decoding the bytes of a well-formed instruction gives it back, with the bytes after it untouched. -/
def Obligations.EncodedInstructionDecodesBack : Prop :=
  ∀ (i : Instr) (rest : List Byte), i.wellFormed = true → decode (encode i ++ rest) = .ok (i, rest)

/-- For each row of the opcode map, the words that match it are exactly the words that decode to an instruction of that
row. -/
def Obligations.WordIsTheInstructionWhoseRowItMatches : Prop :=
  ∀ (w : Word), ∀ r ∈ opcodeTable, (w &&& r.mask = r.pattern ↔ ∃ i, decodeWord w = some i ∧ i.row = r)

/-- A word that decodes is the encoding of the instruction it decodes to, and that instruction is well-formed. -/
def Obligations.DecodedInstructionEncodesBackToItsWord : Prop :=
  ∀ (w : Word) (i : Instr), decodeWord w = some i → i.wellFormed = true ∧ encodeWord i = w

/-- No word matches two rows of the opcode map. -/
def Obligations.OpcodePatternsArePairwiseDisjoint : Prop :=
  ∀ r₁ ∈ opcodeTable, ∀ r₂ ∈ opcodeTable, ∀ w : Word, r₁.Matches w → r₂.Matches w → r₁ = r₂

/-- The words that are no instruction are exactly the six spaces of the table of R50 (the patterns read literally, the
spec's decision D7, log entry 7). -/
def Obligations.UnimplementedWordsAreTheListedSpaces : Prop :=
  ∀ w : Word, decodeWord w = none ↔
    ((fields w).op = 0x0 ∧ w ≠ 0x00E0 ∧ w ≠ 0x00EE) ∨
    ((fields w).op = 0x5 ∧ (fields w).n ≠ 0) ∨
    ((fields w).op = 0x8 ∧ (fields w).n ∈ ([0x8, 0x9, 0xA, 0xB, 0xC, 0xD, 0xF] : List Nibble)) ∨
    ((fields w).op = 0x9 ∧ (fields w).n ≠ 0) ∨
    ((fields w).op = 0xE ∧ (fields w).nn ∉ ([0x9E, 0xA1] : List Byte)) ∨
    ((fields w).op = 0xF ∧
      (fields w).nn ∉ ([0x07, 0x0A, 0x15, 0x18, 0x1E, 0x29, 0x33, 0x55, 0x65] : List Byte))

/-- R60: the decoder exposes the raw word and the six fields of its bits, and the record of 0xD12A is the one listed. -/
def Obligations.DecodeExposesTheSevenFields : Prop :=
  (∀ w : Word,
    (fields w).word = w ∧
    (fields w).op.toNat = w.toNat / 4096 ∧
    (fields w).x.toNat = w.toNat / 256 % 16 ∧
    (fields w).y.toNat = w.toNat / 16 % 16 ∧
    (fields w).n.toNat = w.toNat % 16 ∧
    (fields w).nn.toNat = w.toNat % 256 ∧
    (fields w).nnn.toNat = w.toNat % 4096) ∧
  fields 0xD12A = ⟨0xD12A, 0xD, 0x1, 0x2, 0xA, 0x2A, 0x12A⟩

/-- The words of the table T-ENC decode as listed there, and a word for each other family. -/
def Obligations.SampleWordsDecodeAsListed : Prop :=
  decodeWord 0x0000 = none ∧ decodeWord 0x00E0 = some .cls ∧ decodeWord 0x00EE = some .ret ∧
  decodeWord 0x1ABC = some (.jp 0xABC) ∧ decodeWord 0x8016 = some (.shr 0 1) ∧
  decodeWord 0xDAB5 = some (.drw 0xA 0xB 5) ∧ decodeWord 0xF265 = some (.ldRegs 2) ∧ decodeWord 0xFFFF = none ∧
  decodeWord 0x332A = some (.seImm 3 0x2A) ∧ decodeWord 0xB234 = some (.jpOff 2 0x234) ∧
  decodeWord 0xE49E = some (.skp 4) ∧ decodeWord 0xF50A = some (.ldVxK 5)

/-! ### The step -/

/-- R62: outside Running a `Step` changes no state; in Running it fetches the big-endian word at `PC`, faults with the
lowest address when one of the two does not exist, and otherwise executes the decoded instruction, from the state in
which the `Step` began, or only advances `PC` and reports a word that is no instruction. `exec` is given the state
with `PC` still at the instruction and advances it itself, where the rule advances `PC` before executing: the model's
choice (log entry 20). That the inputs are sampled outside Running too is the model's choice (log entry 5); the fetch
fault, its record and the no-op are the spec's decisions D2, D4, D5 and D8 (log entry 9). -/
def Obligations.StepFetchesDecodesAndExecutes : Prop :=
  ∀ (s : State) (keys : Keys) (rnd : Byte), s.nextEvent = .step keys rnd →
    (s.mode ≠ .running → step s = .next (stepBegun s keys rnd)) ∧
    (s.mode = .running → s.pc.toNat > 0xFFF →
      step s = .next (faulted (stepBegun s keys rnd) .memoryFault s.pc.toNat)) ∧
    (s.mode = .running → s.pc.toNat = 0xFFF →
      step s = .next (faulted (stepBegun s keys rnd) .memoryFault 0x1000)) ∧
    (s.mode = .running → s.pc.toNat < 0xFFF → ∀ w : Word,
      w.toNat = (s.byteAt s.pc.toNat).toNat * 256 + (s.byteAt (s.pc.toNat + 1)).toNat →
      (∀ i, decodeWord w = some i → step s = exec i (stepBegun s keys rnd)) ∧
      (decodeWord w = none →
        step s = .next { stepBegun s keys rnd with pc := s.pc + 2, diag := some ⟨w, s.pc⟩ }))

/-- R66: a word that matches no row of the opcode map is a no-op: `PC` stays advanced by 2, `DIAG` reports the word and
its address, and nothing else changes; the all-zero word is such a word. The spec's decisions D7 and D8 (log entries 7
and 9). -/
def Obligations.UnimplementedWordOnlyAdvancesPcAndReports : Prop :=
  (∀ (s : State) (keys : Keys) (rnd : Byte) (w : Word),
    s.nextEvent = .step keys rnd → s.mode = .running → s.pc.toNat < 0xFFF →
    w.toNat = (s.byteAt s.pc.toNat).toNat * 256 + (s.byteAt (s.pc.toNat + 1)).toNat →
    (∀ r ∈ opcodeTable, w &&& r.mask ≠ r.pattern) →
    step s = .next { stepBegun s keys rnd with pc := s.pc + 2, diag := some ⟨w, s.pc⟩ }) ∧
  (∀ r ∈ opcodeTable, (0x0000 : Word) &&& r.mask ≠ r.pattern)

/-- Every step of the machine, whatever the state and whatever the host does, answers a next state. -/
def Obligations.EveryStepAnswersANextState : Prop := ∀ s : State, ∃ t, step s = .next t

/-- Every step keeps the invariant of the machine, for every event the host can raise. -/
def Obligations.StepKeepsTheMachineInvariant : Prop :=
  ∀ s t : State, s.Inv → step s = .next t → t.Inv

/-- The invariant holds in the state after reset. -/
def Obligations.ResetStateMeetsTheMachineInvariant : Prop := State.reset.Inv

/-- No step changes the policy flags or the font, and only a successful load replaces the image. -/
def Obligations.ConfigurationNeverChanges : Prop :=
  ∀ s t : State, step s = .next t →
    t.config = s.config ∧
    (t.image = s.image ∨ ∃ image, s.nextEvent = .load image ∧ image.length ≤ 3584 ∧ t.image = image)

/-- The transitions of `MODE` (R22): Pause, Resume, a fault, Reset and a successful Load, and no others. Running after
`Reset` and the way out of Halted are the spec's decisions D20 and D21 (log entry 9). -/
def Obligations.ModeChangesOnlyAsListed : Prop :=
  ∀ s t : State, step s = .next t →
    t.mode = s.mode ∨
    (s.nextEvent = .pause ∧ s.mode = .running ∧ t.mode = .paused) ∨
    (s.nextEvent = .resume ∧ s.mode = .paused ∧ t.mode = .running) ∨
    ((∃ keys rnd, s.nextEvent = .step keys rnd) ∧ s.mode = .running ∧ t.mode = .halted ∧ t.fcause ≠ none) ∨
    (s.nextEvent = .reset ∧ t.mode = .running) ∨
    (∃ image, s.nextEvent = .load image ∧ image.length ≤ 3584 ∧ t.mode = .running)

/-- R140: in Halted, Step, Tick, Pause, Resume and Start change nothing, Flush clears `DIRTY`, Reset and a successful
Load return to Running; and the only way into Halted is a fault. The spec's decisions D21 and D22 (log entry 9). -/
def Obligations.HaltedIsEnteredByFaultAndLeftByReset : Prop :=
  (∀ s : State, s.mode = .halted →
    (∀ keys rnd, s.nextEvent = .step keys rnd → step s = .next (stepBegun s keys rnd)) ∧
    (s.nextEvent = .tick ∨ s.nextEvent = .pause ∨ s.nextEvent = .resume ∨ s.nextEvent = .start →
      step s = .next (eventTaken s)) ∧
    (s.nextEvent = .flush → step s = .next { eventTaken s with dirty := false }) ∧
    (s.nextEvent = .reset → ∃ t, step s = .next t ∧ t.mode = .running) ∧
    (∀ image, s.nextEvent = .load image → image.length ≤ 3584 → ∃ t, step s = .next t ∧ t.mode = .running)) ∧
  (∀ s t : State, s.mode ≠ .halted → step s = .next t → t.mode = .halted →
    ∃ keys rnd, s.nextEvent = .step keys rnd ∧ stepFault (stepBegun s keys rnd) ≠ none)

/-- R131 and R132: a `Step` in Running that faults by the table of R131 changes nothing but `MODE`, `FCAUSE`, `FPC` and
`FINFO`, with the table's values; a `Step` that does not stays in Running and leaves the fault record alone. The codes
are those of the table. The record, its codes and the frozen `PC` are the spec's decisions D4 and D5, the four faults
D2, D3 and D6 (log entry 9). -/
def Obligations.FaultingStepDiscardsEveryWriteAndRecords : Prop :=
  (∀ (s : State) (keys : Keys) (rnd : Byte), s.nextEvent = .step keys rnd → s.mode = .running →
    match stepFault (stepBegun s keys rnd) with
    | some (k, info) => step s = .next (faulted (stepBegun s keys rnd) k info)
    | none => ∃ t, step s = .next t ∧ t.mode = .running ∧
        t.fcause = s.fcause ∧ t.fpc = s.fpc ∧ t.finfo = s.finfo) ∧
  (∀ s : State, s.fcauseCode = match s.fcause with
    | none => 0
    | some .stackOverflow => 1
    | some .stackUnderflow => 2
    | some .memoryFault => 3
    | some .keyIndexFault => 4)

/-- Whole-machine rule: each element of state is written only by the instructions the spec lists for it. -/
def Obligations.EachStateElementHasOnlyItsListedWriters : Prop :=
  ∀ (i : Instr) (s t : State), exec i s = .next t →
    ((∀ a, i ≠ .call a) → i ≠ .ret → t.sp = s.sp ∧ t.stack = s.stack) ∧
    ((∀ x, i ≠ .ldB x) → (∀ x, i ≠ .stRegs x) → t.mem = s.mem) ∧
    (i ≠ .cls → (∀ x y n, i ≠ .drw x y n) → t.fb = s.fb ∧ t.dirty = s.dirty) ∧
    ((∀ a, i ≠ .ldI a) → (∀ x, i ≠ .addI x) → (∀ x, i ≠ .ldF x) →
      (s.config.policy.memInc = true → (∀ x, i ≠ .stRegs x) ∧ (∀ x, i ≠ .ldRegs x)) → t.i = s.i) ∧
    ((∀ x, i ≠ .ldDtVx x) → t.dt = s.dt) ∧
    ((∀ x, i ≠ .ldStVx x) → t.st = s.st) ∧
    ((∀ x, i ≠ .ldVxK x) → t.kwValid = s.kwValid ∧ t.kwKey = s.kwKey) ∧
    t.audio = s.audio ∧ t.config = s.config ∧ t.image = s.image ∧ t.keys = s.keys ∧ t.rnd = s.rnd ∧
    t.diag = s.diag ∧ t.loadReport = s.loadReport ∧ t.events = s.events ∧ t.draws = s.draws

/-- A general register changes only as an instruction's destination, or, for VF, as its flag. -/
def Obligations.RegistersAreWrittenOnlyAsDestinationOrFlag : Prop :=
  ∀ (i : Instr) (s t : State) (r : RegIdx), exec i s = .next t → ¬ mayWriteReg i r → t.reg r = s.reg r

/-- The table of R13: `PC` stays at a faulting instruction, and every instruction that is not a control transfer or the
key wait leaves `PC` advanced by 2. -/
def Obligations.ProgramCounterStaysOnFaultElseAdvancesByTwo : Prop :=
  ∀ (i : Instr) (s t : State), exec i s = .next t →
    (faultOf i s ≠ none → t.pc = s.pc) ∧ (faultOf i s = none → ¬ isControl i → t.pc = s.pc + 2)

/-- Noninterference: what an instruction leaves for the program to see does not depend on `DIRTY`, `AUDIO`, `ST`, `MODE`,
the fault record or the stack entries above `SP`. -/
def Obligations.ProgramCannotObserveOutputState : Prop :=
  ∀ (i : Instr) (s₁ s₂ t₁ t₂ : State), sameToProgram s₁ s₂ →
    exec i s₁ = .next t₁ → exec i s₂ = .next t₂ → sameToProgram t₁ t₂

/-! ### The other events -/

/-- R150: a `Reset`, in every mode, gives every element its value of R25 and leaves the image and the configuration. That
it works in Halted is the spec's decision D21, that `MODE` is then Running D20 (log entry 9). -/
def Obligations.ResetEventRestoresEveryElement : Prop :=
  ∀ s : State, s.nextEvent = .reset →
    ∃ t, step s = .next t ∧
      (∀ a, a ≤ 0xFFF → t.byteAt a =
        if h : a < 80 then s.config.font[a]
        else if 0x200 ≤ a then (s.image[a - 0x200]?).getD 0 else 0) ∧
      (∀ r, t.reg r = 0) ∧ (∀ k, k < 12 → t.stack[k]? = some 0) ∧ (∀ y x, y < 32 → x < 64 → t.pixel y x = false) ∧
      t = { eventTaken s with
        mem := t.mem, v := t.v, stack := t.stack, fb := t.fb
        i := 0, pc := 0x200, sp := 0, dt := 0, st := 0, audio := false, dirty := false
        kwValid := false, kwKey := 0, mode := .running, fcause := none, fpc := 0, finfo := 0 }

/-- The state after reset holds the values of R25, for the configuration and the image it was built with. That the image
is empty is the model's choice (log entry 3). -/
def Obligations.ResetStateHoldsTheListedValues : Prop :=
  (∀ a, a ≤ 0xFFF → State.reset.byteAt a = if h : a < 80 then State.reset.config.font[a] else 0) ∧
  (∀ r, State.reset.reg r = 0) ∧ (∀ k, k < 12 → State.reset.stack[k]? = some 0) ∧
  (∀ y x, y < 32 → x < 64 → State.reset.pixel y x = false) ∧
  State.reset.i = 0 ∧ State.reset.pc = 0x200 ∧ State.reset.sp = 0 ∧ State.reset.dt = 0 ∧ State.reset.st = 0 ∧
  State.reset.audio = false ∧ State.reset.dirty = false ∧ State.reset.kwValid = false ∧ State.reset.kwKey = 0 ∧
  State.reset.mode = .running ∧ State.reset.fcause = none ∧ State.reset.fpc = 0 ∧ State.reset.finfo = 0 ∧
  State.reset.image = []

/-- R152: an image over 3584 bytes is reported and changes nothing (the spec's decision D23, log entry 9); any other
replaces the image, resets, and reports success. -/
def Obligations.LoadReplacesTheImageOrChangesNothing : Prop :=
  ∀ (s : State) (image : List Byte), s.nextEvent = .load image →
    (image.length > 3584 → step s = .next { eventTaken s with loadReport := some .loadError }) ∧
    (image.length ≤ 3584 → ∃ t, step s = .next t ∧
      (∀ a, a ≤ 0xFFF → t.byteAt a =
        if h : a < 80 then s.config.font[a]
        else if 0x200 ≤ a then (image[a - 0x200]?).getD 0 else 0) ∧
      (∀ r, t.reg r = 0) ∧ (∀ k, k < 12 → t.stack[k]? = some 0) ∧ (∀ y x, y < 32 → x < 64 → t.pixel y x = false) ∧
      t = { eventTaken s with
        mem := t.mem, v := t.v, stack := t.stack, fb := t.fb
        image := image, loadReport := some .success
        i := 0, pc := 0x200, sp := 0, dt := 0, st := 0, audio := false, dirty := false
        kwValid := false, kwKey := 0, mode := .running, fcause := none, fpc := 0, finfo := 0 })

/-- R125: in Running a `Tick` samples `AUDIO` from `ST` before the decrement and counts both timers down, floored at
zero; outside Running it changes nothing. It touches nothing else. The sample point is the spec's decision D18, Halted
D22 (log entry 9). -/
def Obligations.TickSamplesAudioThenCountsDown : Prop :=
  ∀ s : State, s.nextEvent = .tick →
    (s.mode = .running → ∃ t, step s = .next t ∧
      (t.audio = true ↔ s.st.toNat > 0) ∧
      t.dt.toNat = s.dt.toNat - 1 ∧ t.st.toNat = s.st.toNat - 1 ∧
      t = { eventTaken s with audio := t.audio, dt := t.dt, st := t.st }) ∧
    (s.mode ≠ .running → step s = .next (eventTaken s))

/-- After k Ticks in Running with nothing between them, `DT` = max(`DT0` - k, 0), the same for `ST`, and nothing but the
timers and `AUDIO` has changed. -/
def Obligations.TimersAfterManyTicks : Prop :=
  ∀ (k : Nat) (rest : List HostEvent) (s : State), s.mode = .running → s.events = List.replicate k .tick ++ rest →
    ∃ t : State, core.run k s = .next t ∧ t.dt.toNat = s.dt.toNat - k ∧ t.st.toNat = s.st.toNat - k ∧
      t = { s with dt := t.dt, st := t.st, audio := t.audio, events := rest }

/-- R141, R142, R143: Pause takes Running to Paused, Resume takes Paused to Running, Start changes nothing; in Paused
a Step and a Tick change nothing. That `Start` does nothing is the spec's decision D20 (log entry 9). -/
def Obligations.PauseResumeAndStart : Prop :=
  ∀ s : State,
    (s.nextEvent = .pause →
      (s.mode = .running → step s = .next { eventTaken s with mode := .paused }) ∧
      (s.mode ≠ .running → step s = .next (eventTaken s))) ∧
    (s.nextEvent = .resume →
      (s.mode = .paused → step s = .next { eventTaken s with mode := .running }) ∧
      (s.mode ≠ .paused → step s = .next (eventTaken s))) ∧
    (s.nextEvent = .start → step s = .next (eventTaken s)) ∧
    (s.mode = .paused → ∀ keys rnd, s.nextEvent = .step keys rnd → step s = .next (stepBegun s keys rnd)) ∧
    (s.mode = .paused → s.nextEvent = .tick → step s = .next (eventTaken s)) ∧
    (s.mode = .paused → s.nextEvent = .flush → step s = .next { eventTaken s with dirty := false })

/-- R118: a Flush, in every mode, changes only `DIRTY` (the spec's decision D17, log entry 9); and no event but a Step,
a Reset and a Load changes a cell. -/
def Obligations.FlushOnlyClearsDirty : Prop :=
  (∀ s : State, s.nextEvent = .flush → step s = .next { eventTaken s with dirty := false }) ∧
  (∀ s t : State, step s = .next t →
    t.fb = s.fb ∨ (∃ keys rnd, s.nextEvent = .step keys rnd) ∨ s.nextEvent = .reset ∨
      ∃ image, s.nextEvent = .load image)

/-! ### Control transfer -/

/-- R71, R72: `00EE` pops the newest entry into `PC`; with an empty stack it faults (the spec's decision D3, log entry 9). -/
def Obligations.ReturnPopsTheStackIntoPc : Prop :=
  EncodedAs 0xFFFF 0x00EE (fun _ => .ret) ∧
  ∀ s : State,
    (0 < s.sp.val → ∃ t, exec .ret s = .next t ∧ t.sp.val = s.sp.val - 1 ∧ s.stack[s.sp.val - 1]? = some t.pc ∧
      t = { s with sp := t.sp, pc := t.pc }) ∧
    (s.sp.val = 0 → exec .ret s = .next (faulted s .stackUnderflow 0x00EE))

/-- R75: `1NNN` sets `PC` to NNN and changes nothing else. -/
def Obligations.JumpSetsPcToItsAddress : Prop :=
  EncodedAs 0xF000 0x1000 (fun d => .jp d.nnn) ∧
  ∀ (nnn : Addr12) (s : State), exec (.jp nnn) s = .next { s with pc := BitVec.ofNat 16 nnn.toNat }

/-- R70, R76: `2NNN` pushes `pc0 + 2` and jumps; with twelve entries on the stack it faults (the spec's decision D3, log
entry 9). -/
def Obligations.CallPushesTheReturnAddressAndJumps : Prop :=
  EncodedAs 0xF000 0x2000 (fun d => .call d.nnn) ∧
  ∀ (nnn : Addr12) (s : State),
    (s.sp.val < 12 → ∃ t, exec (.call nnn) s = .next t ∧ t.sp.val = s.sp.val + 1 ∧
      (∀ k, k < 12 → t.stack[k]? = if k = s.sp.val then some (s.pc + 2) else s.stack[k]?) ∧
      t = { s with sp := t.sp, stack := t.stack, pc := BitVec.ofNat 16 nnn.toNat }) ∧
    (s.sp.val = 12 → exec (.call nnn) s = .next (faulted s .stackOverflow (0x2000 + nnn.toNat)))

/-- N calls followed by N returns, for nesting up to the capacity: control is back at the instruction after the first
call, at the depth it had before, and only dead stack entries have changed. -/
def Obligations.NestedCallsAndReturnsMatch : Prop :=
  ∀ (targets : List Addr12) (s : State), targets ≠ [] → s.sp.val + targets.length ≤ 12 →
    ∃ t, execAll (targets.map .call ++ List.replicate targets.length .ret) s = .next t ∧
      (∀ k, k < s.sp.val → t.stack[k]? = s.stack[k]?) ∧ t = { s with pc := s.pc + 2, stack := t.stack }

/-- R73: `BNNN` jumps to `V[0] + NNN`, or to `V[X] + NNN` with `Q_JUMP_VX = 1`, unmasked (the spec's
decision D10, log entry 9). -/
def Obligations.JumpWithOffsetAddsThePolicysRegister : Prop :=
  EncodedAs 0xF000 0xB000 (fun d => .jpOff d.x d.nnn) ∧
  ∀ (x : RegIdx) (nnn : Addr12) (s : State), ∃ t, exec (.jpOff x nnn) s = .next t ∧
    t.pc.toNat = (if s.config.policy.jumpVx = true then (s.reg x).toNat else (s.reg 0).toNat) + nnn.toNat ∧
    t = { s with pc := t.pc }

/-- R74, R77 to R80: the four register and immediate skips: over the next instruction exactly when the condition holds,
and nothing but `PC` changes. Which of them test equality is general knowledge, as the spec marks it (log entry 10). -/
def Obligations.SkipsCompareAndMoveOnlyPc : Prop :=
  EncodedAs 0xF000 0x3000 (fun d => .seImm d.x d.nn) ∧ EncodedAs 0xF000 0x4000 (fun d => .sneImm d.x d.nn) ∧
  EncodedAs 0xF00F 0x5000 (fun d => .seReg d.x d.y) ∧ EncodedAs 0xF00F 0x9000 (fun d => .sneReg d.x d.y) ∧
  (∀ (x : RegIdx) (nn : Byte) (s : State),
    exec (.seImm x nn) s = .next { s with pc := if s.reg x = nn then s.pc + 4 else s.pc + 2 } ∧
    exec (.sneImm x nn) s = .next { s with pc := if s.reg x ≠ nn then s.pc + 4 else s.pc + 2 }) ∧
  (∀ (x y : RegIdx) (s : State),
    exec (.seReg x y) s = .next { s with pc := if s.reg x = s.reg y then s.pc + 4 else s.pc + 2 } ∧
    exec (.sneReg x y) s = .next { s with pc := if s.reg x ≠ s.reg y then s.pc + 4 else s.pc + 2 })

/-- R81, R82: the key skips test the level of key V[X] in the snapshot; a number above 15 faults
(the spec's decision D6, log entry 9). -/
def Obligations.KeySkipsTestTheSnapshot : Prop :=
  EncodedAs 0xF0FF 0xE09E (fun d => .skp d.x) ∧ EncodedAs 0xF0FF 0xE0A1 (fun d => .sknp d.x) ∧
  ∀ (x : RegIdx) (s : State),
    ((s.reg x).toNat ≤ 15 →
      exec (.skp x) s =
        .next { s with pc := if s.keys.getLsbD (s.reg x).toNat = true then s.pc + 4 else s.pc + 2 } ∧
      exec (.sknp x) s =
        .next { s with pc := if s.keys.getLsbD (s.reg x).toNat = false then s.pc + 4 else s.pc + 2 }) ∧
    ((s.reg x).toNat > 15 →
      exec (.skp x) s = .next (faulted s .keyIndexFault (s.reg x).toNat) ∧
      exec (.sknp x) s = .next (faulted s .keyIndexFault (s.reg x).toNat))

/-! ### Loads and ALU -/

/-- R85, R87: the loads write V[X] only, with NN or V[Y]. -/
def Obligations.LoadsWriteOnlyTheDestination : Prop :=
  EncodedAs 0xF000 0x6000 (fun d => .ldImm d.x d.nn) ∧ EncodedAs 0xF00F 0x8000 (fun d => .ldReg d.x d.y) ∧
  (∀ (x : RegIdx) (nn : Byte) (s : State), ∃ t, exec (.ldImm x nn) s = .next t ∧
    (∀ r, t.reg r = if r = x then nn else s.reg r) ∧ t = { s with pc := s.pc + 2, v := t.v }) ∧
  (∀ (x y : RegIdx) (s : State), ∃ t, exec (.ldReg x y) s = .next t ∧
    (∀ r, t.reg r = if r = x then s.reg y else s.reg r) ∧ t = { s with pc := s.pc + 2, v := t.v })

/-- R86: `7XNN` adds modulo 256 and writes no flag. -/
def Obligations.AddImmediateWrapsAndSetsNoFlag : Prop :=
  EncodedAs 0xF000 0x7000 (fun d => .addImm d.x d.nn) ∧
  ∀ (x : RegIdx) (nn : Byte) (s : State), ∃ t, exec (.addImm x nn) s = .next t ∧
    (∀ r, (t.reg r).toNat = if r = x then ((s.reg x).toNat + nn.toNat) % 256 else (s.reg r).toNat) ∧
    t = { s with pc := s.pc + 2, v := t.v }

/-- R88 to R90: OR, AND and XOR; VF is then 0 with `Q_LOGIC_VF = 1`, and otherwise untouched. -/
def Obligations.LogicOperationsClearVfByPolicy : Prop :=
  EncodedAs 0xF00F 0x8001 (fun d => .orReg d.x d.y) ∧ EncodedAs 0xF00F 0x8002 (fun d => .andReg d.x d.y) ∧
  EncodedAs 0xF00F 0x8003 (fun d => .xorReg d.x d.y) ∧
  ∀ (x y : RegIdx) (s : State),
    (∃ t, exec (.orReg x y) s = .next t ∧
      (∀ r, t.reg r = if r = 15 ∧ s.config.policy.logicVf = true then 0
        else if r = x then s.reg x ||| s.reg y else s.reg r) ∧
      t = { s with pc := s.pc + 2, v := t.v }) ∧
    (∃ t, exec (.andReg x y) s = .next t ∧
      (∀ r, t.reg r = if r = 15 ∧ s.config.policy.logicVf = true then 0
        else if r = x then s.reg x &&& s.reg y else s.reg r) ∧
      t = { s with pc := s.pc + 2, v := t.v }) ∧
    (∃ t, exec (.xorReg x y) s = .next t ∧
      (∀ r, t.reg r = if r = 15 ∧ s.config.policy.logicVf = true then 0
        else if r = x then s.reg x ^^^ s.reg y else s.reg r) ∧
      t = { s with pc := s.pc + 2, v := t.v })

/-- R91: the sum modulo 256 in V[X], then the carry in VF, both from the values before the instruction. -/
def Obligations.AddRegisterWritesSumThenCarry : Prop :=
  EncodedAs 0xF00F 0x8004 (fun d => .addReg d.x d.y) ∧
  ∀ (x y : RegIdx) (s : State), ∃ t, exec (.addReg x y) s = .next t ∧
    (∀ r, (t.reg r).toNat =
      if r = 15 then (if (s.reg x).toNat + (s.reg y).toNat > 255 then 1 else 0)
      else if r = x then ((s.reg x).toNat + (s.reg y).toNat) % 256 else (s.reg r).toNat) ∧
    t = { s with pc := s.pc + 2, v := t.v }

/-- R92, R94: the difference modulo 256 in V[X], then in VF a 1 exactly when there is no borrow. That equal operands do
not borrow is the spec's decision D26 (log entry 9). -/
def Obligations.SubtractionsWriteDifferenceThenNoBorrow : Prop :=
  EncodedAs 0xF00F 0x8005 (fun d => .sub d.x d.y) ∧ EncodedAs 0xF00F 0x8007 (fun d => .subn d.x d.y) ∧
  ∀ (x y : RegIdx) (s : State),
    (∃ t, exec (.sub x y) s = .next t ∧
      (∀ r, ((t.reg r).toNat : Int) =
        if r = 15 then (if (s.reg x).toNat ≥ (s.reg y).toNat then 1 else 0)
        else if r = x then ((s.reg x).toNat - (s.reg y).toNat : Int) % 256 else (s.reg r).toNat) ∧
      t = { s with pc := s.pc + 2, v := t.v }) ∧
    (∃ t, exec (.subn x y) s = .next t ∧
      (∀ r, ((t.reg r).toNat : Int) =
        if r = 15 then (if (s.reg y).toNat ≥ (s.reg x).toNat then 1 else 0)
        else if r = x then ((s.reg y).toNat - (s.reg x).toNat : Int) % 256 else (s.reg r).toNat) ∧
      t = { s with pc := s.pc + 2, v := t.v })

/-- R93, R95: the source the policy selects shifted by one in V[X], then the bit shifted out in VF. -/
def Obligations.ShiftsWriteResultThenTheBitShiftedOut : Prop :=
  EncodedAs 0xF00F 0x8006 (fun d => .shr d.x d.y) ∧ EncodedAs 0xF00F 0x800E (fun d => .shl d.x d.y) ∧
  ∀ (x y : RegIdx) (s : State) (src : Nat),
    src = (if s.config.policy.shiftVy = true then (s.reg y).toNat else (s.reg x).toNat) →
    (∃ t, exec (.shr x y) s = .next t ∧
      (∀ r, (t.reg r).toNat = if r = 15 then src % 2 else if r = x then src / 2 else (s.reg r).toNat) ∧
      t = { s with pc := s.pc + 2, v := t.v }) ∧
    (∃ t, exec (.shl x y) s = .next t ∧
      (∀ r, (t.reg r).toNat = if r = 15 then src / 128 else if r = x then src * 2 % 256 else (s.reg r).toNat) ∧
      t = { s with pc := s.pc + 2, v := t.v })

/-- R102: V[X] is the sampled random byte masked with NN, whatever that byte is; no flag. -/
def Obligations.RandomIsTheSampledByteMasked : Prop :=
  EncodedAs 0xF000 0xC000 (fun d => .rnd d.x d.nn) ∧
  ∀ (x : RegIdx) (nn : Byte) (s : State), ∃ t, exec (.rnd x nn) s = .next t ∧
    (∀ r, t.reg r = if r = x then s.rnd &&& nn else s.reg r) ∧ t = { s with pc := s.pc + 2, v := t.v }

/-! ### Index and memory -/

/-- R105: `ANNN` sets `I` to NNN, zero-extended, and changes nothing else. -/
def Obligations.LoadIndexWritesTheAddress : Prop :=
  EncodedAs 0xF000 0xA000 (fun d => .ldI d.nnn) ∧
  ∀ (nnn : Addr12) (s : State), ∃ t, exec (.ldI nnn) s = .next t ∧
    t.i.toNat = nnn.toNat ∧ t = { s with pc := s.pc + 2, i := t.i }

/-- R106 and R107: `I + V[X]` modulo 65536 with no flag, and `V[X] * 5` with no mask. The missing flag and the missing
mask are the spec's own decisions D33 and D32 (log entry 9). -/
def Obligations.IndexArithmeticWritesOnlyI : Prop :=
  EncodedAs 0xF0FF 0xF01E (fun d => .addI d.x) ∧ EncodedAs 0xF0FF 0xF029 (fun d => .ldF d.x) ∧
  (∀ (x : RegIdx) (s : State), ∃ t, exec (.addI x) s = .next t ∧
    t.i.toNat = (s.i.toNat + (s.reg x).toNat) % 65536 ∧ t = { s with pc := s.pc + 2, i := t.i }) ∧
  (∀ (x : RegIdx) (s : State), ∃ t, exec (.ldF x) s = .next t ∧
    t.i.toNat = (s.reg x).toNat * 5 ∧ t = { s with pc := s.pc + 2, i := t.i })

/-- R108: the hundreds, tens and ones digits of V[X] at `I`, `I + 1`, `I + 2`, every other byte and all else unchanged;
out of range it faults and stores nothing. The order of the digits is general knowledge, as the spec marks it (log entry
12); the fault is the spec's decisions D2 and D31 (log entry 9). -/
def Obligations.BcdStoresThreeDigits : Prop :=
  EncodedAs 0xF0FF 0xF033 (fun d => .ldB d.x) ∧
  ∀ (x : RegIdx) (s : State), Memory.wf s.config.background s.mem = true →
    (s.i.toNat + 2 ≤ 0xFFF → ∃ t, exec (.ldB x) s = .next t ∧
      (t.byteAt s.i.toNat).toNat = (s.reg x).toNat / 100 ∧
      (t.byteAt (s.i.toNat + 1)).toNat = (s.reg x).toNat / 10 % 10 ∧
      (t.byteAt (s.i.toNat + 2)).toNat = (s.reg x).toNat % 10 ∧
      (∀ a, (a < s.i.toNat ∨ s.i.toNat + 2 < a) → t.byteAt a = s.byteAt a) ∧
      t = { s with pc := s.pc + 2, mem := t.mem }) ∧
    (s.i.toNat + 2 > 0xFFF → exec (.ldB x) s = .next (faulted s .memoryFault (max s.i.toNat 0x1000)))

/-- R109: V[k] at `I + k` for k = 0..X, every other byte unchanged, `I` advanced by X + 1 with `Q_MEM_INC = 1`; out of
range it faults and stores nothing (the spec's decisions D2 and D31, log entry 9). -/
def Obligations.StoreRegistersWritesTheBlock : Prop :=
  EncodedAs 0xF0FF 0xF055 (fun d => .stRegs d.x) ∧
  ∀ (x : RegIdx) (s : State), Memory.wf s.config.background s.mem = true →
    (s.i.toNat + x.toNat ≤ 0xFFF → ∃ t, exec (.stRegs x) s = .next t ∧
      (∀ k : RegIdx, k.toNat ≤ x.toNat → t.byteAt (s.i.toNat + k.toNat) = s.reg k) ∧
      (∀ a, (a < s.i.toNat ∨ s.i.toNat + x.toNat < a) → t.byteAt a = s.byteAt a) ∧
      t.i.toNat = (if s.config.policy.memInc = true then s.i.toNat + x.toNat + 1 else s.i.toNat) ∧
      t = { s with pc := s.pc + 2, mem := t.mem, i := t.i }) ∧
    (s.i.toNat + x.toNat > 0xFFF → exec (.stRegs x) s = .next (faulted s .memoryFault (max s.i.toNat 0x1000)))

/-- R110: V[k] from `I + k` for k = 0..X, the registers above X untouched, `I` advanced by X + 1 with `Q_MEM_INC = 1`;
out of range it faults and loads nothing (the spec's decisions D2 and D31, log entry 9). -/
def Obligations.LoadRegistersReadsTheBlock : Prop :=
  EncodedAs 0xF0FF 0xF065 (fun d => .ldRegs d.x) ∧
  ∀ (x : RegIdx) (s : State),
    (s.i.toNat + x.toNat ≤ 0xFFF → ∃ t, exec (.ldRegs x) s = .next t ∧
      (∀ k : RegIdx, t.reg k = if k.toNat ≤ x.toNat then s.byteAt (s.i.toNat + k.toNat) else s.reg k) ∧
      t.i.toNat = (if s.config.policy.memInc = true then s.i.toNat + x.toNat + 1 else s.i.toNat) ∧
      t = { s with pc := s.pc + 2, v := t.v, i := t.i }) ∧
    (s.i.toNat + x.toNat > 0xFFF → exec (.ldRegs x) s = .next (faulted s .memoryFault (max s.i.toNat 0x1000)))

/-- A store is seen by the very next fetch: if `FX55` stored over the two bytes at the new `PC`, the fetch gives the
word of the two registers stored there. -/
def Obligations.NextFetchSeesTheStoredBytes : Prop :=
  ∀ (x k k' : RegIdx) (s t : State), Memory.wf s.config.background s.mem = true →
    s.i.toNat + x.toNat ≤ 0xFFF → exec (.stRegs x) s = .next t →
    k'.toNat = k.toNat + 1 → k'.toNat ≤ x.toNat → t.pc.toNat = s.i.toNat + k.toNat →
    ∃ w, t.fetch = .ok w ∧ w.toNat = (s.reg k).toNat * 256 + (s.reg k').toNat

/-! ### Display -/

/-- R115: `00E0` makes every cell 0, sets `DIRTY` (the spec's decision D16, log entry 9), and changes nothing else, VF
included. -/
def Obligations.ClearZeroesTheFramebuffer : Prop :=
  EncodedAs 0xFFFF 0x00E0 (fun _ => .cls) ∧
  ∀ s : State, ∃ t, exec .cls s = .next t ∧ (∀ y x, y < 32 → x < 64 → t.pixel y x = false) ∧
    t = { s with pc := s.pc + 2, fb := t.fb, dirty := true }

/-- R116, R117: every cell is XORed with the clipped sprite's bit on it, VF is 1 exactly when a set cell was cleared,
`DIRTY` is set, nothing else changes; a row above 0xFFF faults and changes nothing. Bit 7 of a row byte leftmost is
general knowledge, as the spec marks it (log entry 11); the coordinates read first, N = 0 and the clipped rows are its
decisions D13 to D15, the fault D2 and D31 (log entry 9). -/
def Obligations.DrawXorsTheClippedSprite : Prop :=
  EncodedAs 0xF000 0xD000 (fun d => .drw d.x d.y d.n) ∧
  ∀ (x y : RegIdx) (n : Nibble) (s : State),
    (spriteInMemory s y n → ∃ t, exec (.drw x y n) s = .next t ∧
      (∀ py px, py < 32 → px < 64 → t.pixel py px = (s.pixel py px ^^ spriteBit s x y n py px)) ∧
      (∀ r, r ≠ 15 → t.reg r = s.reg r) ∧
      ((∃ py px, py < 32 ∧ px < 64 ∧ s.pixel py px = true ∧ spriteBit s x y n py px = true) → t.reg 15 = 1) ∧
      ((¬ ∃ py px, py < 32 ∧ px < 64 ∧ s.pixel py px = true ∧ spriteBit s x y n py px = true) → t.reg 15 = 0) ∧
      t = { s with pc := s.pc + 2, v := t.v, fb := t.fb, dirty := true }) ∧
    (¬ spriteInMemory s y n → exec (.drw x y n) s = .next (faulted s .memoryFault (max s.i.toNat 0x1000)))

/-- R119: drawing the same sprite at the same place again restores every cell, when its bytes, `I`, V[X] and V[Y] are
as before; on a clear region the first draw reports 0 and the second reports 1 exactly when the sprite has a 1 bit. An
inference of the spec from R116. -/
def Obligations.DrawingTwiceRestoresTheFramebuffer : Prop :=
  ∀ (x y : RegIdx) (n : Nibble) (s : State), spriteInMemory s y n →
    ∃ t, exec (.drw x y n) s = .next t ∧
      ∀ t' : State, t'.fb = t.fb → t'.i = s.i → t'.reg x = s.reg x → t'.reg y = s.reg y →
        (∀ r, r < min n.toNat (32 - (s.reg y).toNat % 32) → t'.byteAt (s.i.toNat + r) = s.byteAt (s.i.toNat + r)) →
        ∃ u, exec (.drw x y n) t' = .next u ∧ u.fb = s.fb ∧
          ((∀ py px, py < 32 → px < 64 → spriteBit s x y n py px = true → s.pixel py px = false) →
            t.reg 15 = 0 ∧
            ((∃ py px, py < 32 ∧ px < 64 ∧ spriteBit s x y n py px = true) → u.reg 15 = 1) ∧
            ((¬ ∃ py px, py < 32 ∧ px < 64 ∧ spriteBit s x y n py px = true) → u.reg 15 = 0))

/-! ### Timers and keys -/

/-- R120 to R122: `DT` into V[X], V[X] into `DT`, V[X] into `ST`; no flag, and `AUDIO` waits for the next Tick. -/
def Obligations.TimerInstructionsMoveOneByte : Prop :=
  EncodedAs 0xF0FF 0xF007 (fun d => .ldVxDt d.x) ∧ EncodedAs 0xF0FF 0xF015 (fun d => .ldDtVx d.x) ∧
  EncodedAs 0xF0FF 0xF018 (fun d => .ldStVx d.x) ∧
  ∀ (x : RegIdx) (s : State),
    (∃ t, exec (.ldVxDt x) s = .next t ∧ (∀ r, t.reg r = if r = x then s.dt else s.reg r) ∧
      t = { s with pc := s.pc + 2, v := t.v }) ∧
    exec (.ldDtVx x) s = .next { s with pc := s.pc + 2, dt := s.reg x } ∧
    exec (.ldStVx x) s = .next { s with pc := s.pc + 2, st := s.reg x }

/-- R123: the key wait captures the lowest key that is down, waits at `pc0` until that key is up, and then delivers its
number and goes on; a `Step` of it that sees no key changes nothing. The lowest key is the spec's decision D19 (log
entry 13). -/
def Obligations.KeyWaitCapturesThenDeliversOnRelease : Prop :=
  EncodedAs 0xF0FF 0xF00A (fun d => .ldVxK d.x) ∧
  ∀ (x : RegIdx) (s : State),
    (s.kwValid = false → s.keys = 0 → exec (.ldVxK x) s = .next s) ∧
    (s.kwValid = false → ∀ k : Nibble, s.keys.getLsbD k.toNat = true →
      (∀ j, j < k.toNat → s.keys.getLsbD j = false) →
      exec (.ldVxK x) s = .next { s with kwValid := true, kwKey := k }) ∧
    (s.kwValid = true → s.keys.getLsbD s.kwKey.toNat = true → exec (.ldVxK x) s = .next s) ∧
    (s.kwValid = true → s.keys.getLsbD s.kwKey.toNat = false → ∃ t, exec (.ldVxK x) s = .next t ∧
      (∀ r, (t.reg r).toNat = if r = x then s.kwKey.toNat else (s.reg r).toNat) ∧
      t = { s with pc := s.pc + 2, v := t.v, kwValid := false })
end

