-- ==== Sys2Proof/Laws/State.lean ====
section
/-! SUPPORT. What each named update of the state does to each field: one lemma per field per update, so that no proof
unfolds a record update. -/

namespace Sys2Proof.Machine

section Updates
variable (s : State)

section
@[simp] theorem advance_config : (s.advance).config = s.config := rfl
@[simp] theorem advance_image : (s.advance).image = s.image := rfl
@[simp] theorem advance_mem : (s.advance).mem = s.mem := rfl
@[simp] theorem advance_v : (s.advance).v = s.v := rfl
@[simp] theorem advance_i : (s.advance).i = s.i := rfl
@[simp] theorem advance_pc : (s.advance).pc = s.pc + 2 := rfl
@[simp] theorem advance_sp : (s.advance).sp = s.sp := rfl
@[simp] theorem advance_stack : (s.advance).stack = s.stack := rfl
@[simp] theorem advance_dt : (s.advance).dt = s.dt := rfl
@[simp] theorem advance_st : (s.advance).st = s.st := rfl
@[simp] theorem advance_audio : (s.advance).audio = s.audio := rfl
@[simp] theorem advance_fb : (s.advance).fb = s.fb := rfl
@[simp] theorem advance_dirty : (s.advance).dirty = s.dirty := rfl
@[simp] theorem advance_kwValid : (s.advance).kwValid = s.kwValid := rfl
@[simp] theorem advance_kwKey : (s.advance).kwKey = s.kwKey := rfl
@[simp] theorem advance_mode : (s.advance).mode = s.mode := rfl
@[simp] theorem advance_fcause : (s.advance).fcause = s.fcause := rfl
@[simp] theorem advance_fpc : (s.advance).fpc = s.fpc := rfl
@[simp] theorem advance_finfo : (s.advance).finfo = s.finfo := rfl
@[simp] theorem advance_keys : (s.advance).keys = s.keys := rfl
@[simp] theorem advance_rnd : (s.advance).rnd = s.rnd := rfl
@[simp] theorem advance_diag : (s.advance).diag = s.diag := rfl
@[simp] theorem advance_loadReport : (s.advance).loadReport = s.loadReport := rfl
@[simp] theorem advance_events : (s.advance).events = s.events := rfl
@[simp] theorem advance_draws : (s.advance).draws = s.draws := rfl
end

section
variable (a : Word)
@[simp] theorem setPc_config : (s.setPc a).config = s.config := rfl
@[simp] theorem setPc_image : (s.setPc a).image = s.image := rfl
@[simp] theorem setPc_mem : (s.setPc a).mem = s.mem := rfl
@[simp] theorem setPc_v : (s.setPc a).v = s.v := rfl
@[simp] theorem setPc_i : (s.setPc a).i = s.i := rfl
@[simp] theorem setPc_pc : (s.setPc a).pc = a := rfl
@[simp] theorem setPc_sp : (s.setPc a).sp = s.sp := rfl
@[simp] theorem setPc_stack : (s.setPc a).stack = s.stack := rfl
@[simp] theorem setPc_dt : (s.setPc a).dt = s.dt := rfl
@[simp] theorem setPc_st : (s.setPc a).st = s.st := rfl
@[simp] theorem setPc_audio : (s.setPc a).audio = s.audio := rfl
@[simp] theorem setPc_fb : (s.setPc a).fb = s.fb := rfl
@[simp] theorem setPc_dirty : (s.setPc a).dirty = s.dirty := rfl
@[simp] theorem setPc_kwValid : (s.setPc a).kwValid = s.kwValid := rfl
@[simp] theorem setPc_kwKey : (s.setPc a).kwKey = s.kwKey := rfl
@[simp] theorem setPc_mode : (s.setPc a).mode = s.mode := rfl
@[simp] theorem setPc_fcause : (s.setPc a).fcause = s.fcause := rfl
@[simp] theorem setPc_fpc : (s.setPc a).fpc = s.fpc := rfl
@[simp] theorem setPc_finfo : (s.setPc a).finfo = s.finfo := rfl
@[simp] theorem setPc_keys : (s.setPc a).keys = s.keys := rfl
@[simp] theorem setPc_rnd : (s.setPc a).rnd = s.rnd := rfl
@[simp] theorem setPc_diag : (s.setPc a).diag = s.diag := rfl
@[simp] theorem setPc_loadReport : (s.setPc a).loadReport = s.loadReport := rfl
@[simp] theorem setPc_events : (s.setPc a).events = s.events := rfl
@[simp] theorem setPc_draws : (s.setPc a).draws = s.draws := rfl
end

section
variable (x : RegIdx) (b : Byte)
@[simp] theorem setReg_config : (s.setReg x b).config = s.config := rfl
@[simp] theorem setReg_image : (s.setReg x b).image = s.image := rfl
@[simp] theorem setReg_mem : (s.setReg x b).mem = s.mem := rfl
@[simp] theorem setReg_v : (s.setReg x b).v = s.v.set x.toNat b x.isLt := rfl
@[simp] theorem setReg_i : (s.setReg x b).i = s.i := rfl
@[simp] theorem setReg_pc : (s.setReg x b).pc = s.pc := rfl
@[simp] theorem setReg_sp : (s.setReg x b).sp = s.sp := rfl
@[simp] theorem setReg_stack : (s.setReg x b).stack = s.stack := rfl
@[simp] theorem setReg_dt : (s.setReg x b).dt = s.dt := rfl
@[simp] theorem setReg_st : (s.setReg x b).st = s.st := rfl
@[simp] theorem setReg_audio : (s.setReg x b).audio = s.audio := rfl
@[simp] theorem setReg_fb : (s.setReg x b).fb = s.fb := rfl
@[simp] theorem setReg_dirty : (s.setReg x b).dirty = s.dirty := rfl
@[simp] theorem setReg_kwValid : (s.setReg x b).kwValid = s.kwValid := rfl
@[simp] theorem setReg_kwKey : (s.setReg x b).kwKey = s.kwKey := rfl
@[simp] theorem setReg_mode : (s.setReg x b).mode = s.mode := rfl
@[simp] theorem setReg_fcause : (s.setReg x b).fcause = s.fcause := rfl
@[simp] theorem setReg_fpc : (s.setReg x b).fpc = s.fpc := rfl
@[simp] theorem setReg_finfo : (s.setReg x b).finfo = s.finfo := rfl
@[simp] theorem setReg_keys : (s.setReg x b).keys = s.keys := rfl
@[simp] theorem setReg_rnd : (s.setReg x b).rnd = s.rnd := rfl
@[simp] theorem setReg_diag : (s.setReg x b).diag = s.diag := rfl
@[simp] theorem setReg_loadReport : (s.setReg x b).loadReport = s.loadReport := rfl
@[simp] theorem setReg_events : (s.setReg x b).events = s.events := rfl
@[simp] theorem setReg_draws : (s.setReg x b).draws = s.draws := rfl
end

section
variable (x : RegIdx) (r f : Byte)
@[simp] theorem setRegFlag_config : (s.setRegFlag x r f).config = s.config := rfl
@[simp] theorem setRegFlag_image : (s.setRegFlag x r f).image = s.image := rfl
@[simp] theorem setRegFlag_mem : (s.setRegFlag x r f).mem = s.mem := rfl
@[simp] theorem setRegFlag_v : (s.setRegFlag x r f).v = (s.v.set x.toNat r x.isLt).set vf.toNat f vf.isLt := rfl
@[simp] theorem setRegFlag_i : (s.setRegFlag x r f).i = s.i := rfl
@[simp] theorem setRegFlag_pc : (s.setRegFlag x r f).pc = s.pc := rfl
@[simp] theorem setRegFlag_sp : (s.setRegFlag x r f).sp = s.sp := rfl
@[simp] theorem setRegFlag_stack : (s.setRegFlag x r f).stack = s.stack := rfl
@[simp] theorem setRegFlag_dt : (s.setRegFlag x r f).dt = s.dt := rfl
@[simp] theorem setRegFlag_st : (s.setRegFlag x r f).st = s.st := rfl
@[simp] theorem setRegFlag_audio : (s.setRegFlag x r f).audio = s.audio := rfl
@[simp] theorem setRegFlag_fb : (s.setRegFlag x r f).fb = s.fb := rfl
@[simp] theorem setRegFlag_dirty : (s.setRegFlag x r f).dirty = s.dirty := rfl
@[simp] theorem setRegFlag_kwValid : (s.setRegFlag x r f).kwValid = s.kwValid := rfl
@[simp] theorem setRegFlag_kwKey : (s.setRegFlag x r f).kwKey = s.kwKey := rfl
@[simp] theorem setRegFlag_mode : (s.setRegFlag x r f).mode = s.mode := rfl
@[simp] theorem setRegFlag_fcause : (s.setRegFlag x r f).fcause = s.fcause := rfl
@[simp] theorem setRegFlag_fpc : (s.setRegFlag x r f).fpc = s.fpc := rfl
@[simp] theorem setRegFlag_finfo : (s.setRegFlag x r f).finfo = s.finfo := rfl
@[simp] theorem setRegFlag_keys : (s.setRegFlag x r f).keys = s.keys := rfl
@[simp] theorem setRegFlag_rnd : (s.setRegFlag x r f).rnd = s.rnd := rfl
@[simp] theorem setRegFlag_diag : (s.setRegFlag x r f).diag = s.diag := rfl
@[simp] theorem setRegFlag_loadReport : (s.setRegFlag x r f).loadReport = s.loadReport := rfl
@[simp] theorem setRegFlag_events : (s.setRegFlag x r f).events = s.events := rfl
@[simp] theorem setRegFlag_draws : (s.setRegFlag x r f).draws = s.draws := rfl
end

section
variable (a : Word)
@[simp] theorem setI_config : (s.setI a).config = s.config := rfl
@[simp] theorem setI_image : (s.setI a).image = s.image := rfl
@[simp] theorem setI_mem : (s.setI a).mem = s.mem := rfl
@[simp] theorem setI_v : (s.setI a).v = s.v := rfl
@[simp] theorem setI_i : (s.setI a).i = a := rfl
@[simp] theorem setI_pc : (s.setI a).pc = s.pc := rfl
@[simp] theorem setI_sp : (s.setI a).sp = s.sp := rfl
@[simp] theorem setI_stack : (s.setI a).stack = s.stack := rfl
@[simp] theorem setI_dt : (s.setI a).dt = s.dt := rfl
@[simp] theorem setI_st : (s.setI a).st = s.st := rfl
@[simp] theorem setI_audio : (s.setI a).audio = s.audio := rfl
@[simp] theorem setI_fb : (s.setI a).fb = s.fb := rfl
@[simp] theorem setI_dirty : (s.setI a).dirty = s.dirty := rfl
@[simp] theorem setI_kwValid : (s.setI a).kwValid = s.kwValid := rfl
@[simp] theorem setI_kwKey : (s.setI a).kwKey = s.kwKey := rfl
@[simp] theorem setI_mode : (s.setI a).mode = s.mode := rfl
@[simp] theorem setI_fcause : (s.setI a).fcause = s.fcause := rfl
@[simp] theorem setI_fpc : (s.setI a).fpc = s.fpc := rfl
@[simp] theorem setI_finfo : (s.setI a).finfo = s.finfo := rfl
@[simp] theorem setI_keys : (s.setI a).keys = s.keys := rfl
@[simp] theorem setI_rnd : (s.setI a).rnd = s.rnd := rfl
@[simp] theorem setI_diag : (s.setI a).diag = s.diag := rfl
@[simp] theorem setI_loadReport : (s.setI a).loadReport = s.loadReport := rfl
@[simp] theorem setI_events : (s.setI a).events = s.events := rfl
@[simp] theorem setI_draws : (s.setI a).draws = s.draws := rfl
end

section
variable (a : Nat) (bs : List Byte)
@[simp] theorem storeBytes_config : (s.storeBytes a bs).config = s.config := rfl
@[simp] theorem storeBytes_image : (s.storeBytes a bs).image = s.image := rfl
@[simp] theorem storeBytes_mem : (s.storeBytes a bs).mem = Memory.writeBytes s.config.background a bs s.mem := rfl
@[simp] theorem storeBytes_v : (s.storeBytes a bs).v = s.v := rfl
@[simp] theorem storeBytes_i : (s.storeBytes a bs).i = s.i := rfl
@[simp] theorem storeBytes_pc : (s.storeBytes a bs).pc = s.pc := rfl
@[simp] theorem storeBytes_sp : (s.storeBytes a bs).sp = s.sp := rfl
@[simp] theorem storeBytes_stack : (s.storeBytes a bs).stack = s.stack := rfl
@[simp] theorem storeBytes_dt : (s.storeBytes a bs).dt = s.dt := rfl
@[simp] theorem storeBytes_st : (s.storeBytes a bs).st = s.st := rfl
@[simp] theorem storeBytes_audio : (s.storeBytes a bs).audio = s.audio := rfl
@[simp] theorem storeBytes_fb : (s.storeBytes a bs).fb = s.fb := rfl
@[simp] theorem storeBytes_dirty : (s.storeBytes a bs).dirty = s.dirty := rfl
@[simp] theorem storeBytes_kwValid : (s.storeBytes a bs).kwValid = s.kwValid := rfl
@[simp] theorem storeBytes_kwKey : (s.storeBytes a bs).kwKey = s.kwKey := rfl
@[simp] theorem storeBytes_mode : (s.storeBytes a bs).mode = s.mode := rfl
@[simp] theorem storeBytes_fcause : (s.storeBytes a bs).fcause = s.fcause := rfl
@[simp] theorem storeBytes_fpc : (s.storeBytes a bs).fpc = s.fpc := rfl
@[simp] theorem storeBytes_finfo : (s.storeBytes a bs).finfo = s.finfo := rfl
@[simp] theorem storeBytes_keys : (s.storeBytes a bs).keys = s.keys := rfl
@[simp] theorem storeBytes_rnd : (s.storeBytes a bs).rnd = s.rnd := rfl
@[simp] theorem storeBytes_diag : (s.storeBytes a bs).diag = s.diag := rfl
@[simp] theorem storeBytes_loadReport : (s.storeBytes a bs).loadReport = s.loadReport := rfl
@[simp] theorem storeBytes_events : (s.storeBytes a bs).events = s.events := rfl
@[simp] theorem storeBytes_draws : (s.storeBytes a bs).draws = s.draws := rfl
end

section
variable (k : FaultKind) (w : Word)
@[simp] theorem raise_config : (s.raise k w).config = s.config := rfl
@[simp] theorem raise_image : (s.raise k w).image = s.image := rfl
@[simp] theorem raise_mem : (s.raise k w).mem = s.mem := rfl
@[simp] theorem raise_v : (s.raise k w).v = s.v := rfl
@[simp] theorem raise_i : (s.raise k w).i = s.i := rfl
@[simp] theorem raise_pc : (s.raise k w).pc = s.pc := rfl
@[simp] theorem raise_sp : (s.raise k w).sp = s.sp := rfl
@[simp] theorem raise_stack : (s.raise k w).stack = s.stack := rfl
@[simp] theorem raise_dt : (s.raise k w).dt = s.dt := rfl
@[simp] theorem raise_st : (s.raise k w).st = s.st := rfl
@[simp] theorem raise_audio : (s.raise k w).audio = s.audio := rfl
@[simp] theorem raise_fb : (s.raise k w).fb = s.fb := rfl
@[simp] theorem raise_dirty : (s.raise k w).dirty = s.dirty := rfl
@[simp] theorem raise_kwValid : (s.raise k w).kwValid = s.kwValid := rfl
@[simp] theorem raise_kwKey : (s.raise k w).kwKey = s.kwKey := rfl
@[simp] theorem raise_mode : (s.raise k w).mode = .halted := rfl
@[simp] theorem raise_fcause : (s.raise k w).fcause = some k := rfl
@[simp] theorem raise_fpc : (s.raise k w).fpc = s.pc := rfl
@[simp] theorem raise_finfo : (s.raise k w).finfo = w := rfl
@[simp] theorem raise_keys : (s.raise k w).keys = s.keys := rfl
@[simp] theorem raise_rnd : (s.raise k w).rnd = s.rnd := rfl
@[simp] theorem raise_diag : (s.raise k w).diag = s.diag := rfl
@[simp] theorem raise_loadReport : (s.raise k w).loadReport = s.loadReport := rfl
@[simp] theorem raise_events : (s.raise k w).events = s.events := rfl
@[simp] theorem raise_draws : (s.raise k w).draws = s.draws := rfl
end

section
variable (k : Canvas)
@[simp] theorem drawn_config : (s.drawn k).config = s.config := rfl
@[simp] theorem drawn_image : (s.drawn k).image = s.image := rfl
@[simp] theorem drawn_mem : (s.drawn k).mem = s.mem := rfl
@[simp] theorem drawn_v : (s.drawn k).v = s.v.set vf.toNat (flagByte k.hit) vf.isLt := rfl
@[simp] theorem drawn_i : (s.drawn k).i = s.i := rfl
@[simp] theorem drawn_pc : (s.drawn k).pc = s.pc + 2 := rfl
@[simp] theorem drawn_sp : (s.drawn k).sp = s.sp := rfl
@[simp] theorem drawn_stack : (s.drawn k).stack = s.stack := rfl
@[simp] theorem drawn_dt : (s.drawn k).dt = s.dt := rfl
@[simp] theorem drawn_st : (s.drawn k).st = s.st := rfl
@[simp] theorem drawn_audio : (s.drawn k).audio = s.audio := rfl
@[simp] theorem drawn_fb : (s.drawn k).fb = k.fb := rfl
@[simp] theorem drawn_dirty : (s.drawn k).dirty = true := rfl
@[simp] theorem drawn_kwValid : (s.drawn k).kwValid = s.kwValid := rfl
@[simp] theorem drawn_kwKey : (s.drawn k).kwKey = s.kwKey := rfl
@[simp] theorem drawn_mode : (s.drawn k).mode = s.mode := rfl
@[simp] theorem drawn_fcause : (s.drawn k).fcause = s.fcause := rfl
@[simp] theorem drawn_fpc : (s.drawn k).fpc = s.fpc := rfl
@[simp] theorem drawn_finfo : (s.drawn k).finfo = s.finfo := rfl
@[simp] theorem drawn_keys : (s.drawn k).keys = s.keys := rfl
@[simp] theorem drawn_rnd : (s.drawn k).rnd = s.rnd := rfl
@[simp] theorem drawn_diag : (s.drawn k).diag = s.diag := rfl
@[simp] theorem drawn_loadReport : (s.drawn k).loadReport = s.loadReport := rfl
@[simp] theorem drawn_events : (s.drawn k).events = s.events := rfl
@[simp] theorem drawn_draws : (s.drawn k).draws = s.draws := rfl
end

section
variable (k : Keys) (r : Byte)
@[simp] theorem beginStep_config : (s.beginStep k r).config = s.config := rfl
@[simp] theorem beginStep_image : (s.beginStep k r).image = s.image := rfl
@[simp] theorem beginStep_mem : (s.beginStep k r).mem = s.mem := rfl
@[simp] theorem beginStep_v : (s.beginStep k r).v = s.v := rfl
@[simp] theorem beginStep_i : (s.beginStep k r).i = s.i := rfl
@[simp] theorem beginStep_pc : (s.beginStep k r).pc = s.pc := rfl
@[simp] theorem beginStep_sp : (s.beginStep k r).sp = s.sp := rfl
@[simp] theorem beginStep_stack : (s.beginStep k r).stack = s.stack := rfl
@[simp] theorem beginStep_dt : (s.beginStep k r).dt = s.dt := rfl
@[simp] theorem beginStep_st : (s.beginStep k r).st = s.st := rfl
@[simp] theorem beginStep_audio : (s.beginStep k r).audio = s.audio := rfl
@[simp] theorem beginStep_fb : (s.beginStep k r).fb = s.fb := rfl
@[simp] theorem beginStep_dirty : (s.beginStep k r).dirty = s.dirty := rfl
@[simp] theorem beginStep_kwValid : (s.beginStep k r).kwValid = s.kwValid := rfl
@[simp] theorem beginStep_kwKey : (s.beginStep k r).kwKey = s.kwKey := rfl
@[simp] theorem beginStep_mode : (s.beginStep k r).mode = s.mode := rfl
@[simp] theorem beginStep_fcause : (s.beginStep k r).fcause = s.fcause := rfl
@[simp] theorem beginStep_fpc : (s.beginStep k r).fpc = s.fpc := rfl
@[simp] theorem beginStep_finfo : (s.beginStep k r).finfo = s.finfo := rfl
@[simp] theorem beginStep_keys : (s.beginStep k r).keys = k := rfl
@[simp] theorem beginStep_rnd : (s.beginStep k r).rnd = r := rfl
@[simp] theorem beginStep_diag : (s.beginStep k r).diag = none := rfl
@[simp] theorem beginStep_loadReport : (s.beginStep k r).loadReport = s.loadReport := rfl
@[simp] theorem beginStep_events : (s.beginStep k r).events = s.events := rfl
@[simp] theorem beginStep_draws : (s.beginStep k r).draws = s.draws := rfl
end

section
variable (w : Word)
@[simp] theorem unimplemented_config : (s.unimplemented w).config = s.config := rfl
@[simp] theorem unimplemented_image : (s.unimplemented w).image = s.image := rfl
@[simp] theorem unimplemented_mem : (s.unimplemented w).mem = s.mem := rfl
@[simp] theorem unimplemented_v : (s.unimplemented w).v = s.v := rfl
@[simp] theorem unimplemented_i : (s.unimplemented w).i = s.i := rfl
@[simp] theorem unimplemented_pc : (s.unimplemented w).pc = s.pc + 2 := rfl
@[simp] theorem unimplemented_sp : (s.unimplemented w).sp = s.sp := rfl
@[simp] theorem unimplemented_stack : (s.unimplemented w).stack = s.stack := rfl
@[simp] theorem unimplemented_dt : (s.unimplemented w).dt = s.dt := rfl
@[simp] theorem unimplemented_st : (s.unimplemented w).st = s.st := rfl
@[simp] theorem unimplemented_audio : (s.unimplemented w).audio = s.audio := rfl
@[simp] theorem unimplemented_fb : (s.unimplemented w).fb = s.fb := rfl
@[simp] theorem unimplemented_dirty : (s.unimplemented w).dirty = s.dirty := rfl
@[simp] theorem unimplemented_kwValid : (s.unimplemented w).kwValid = s.kwValid := rfl
@[simp] theorem unimplemented_kwKey : (s.unimplemented w).kwKey = s.kwKey := rfl
@[simp] theorem unimplemented_mode : (s.unimplemented w).mode = s.mode := rfl
@[simp] theorem unimplemented_fcause : (s.unimplemented w).fcause = s.fcause := rfl
@[simp] theorem unimplemented_fpc : (s.unimplemented w).fpc = s.fpc := rfl
@[simp] theorem unimplemented_finfo : (s.unimplemented w).finfo = s.finfo := rfl
@[simp] theorem unimplemented_keys : (s.unimplemented w).keys = s.keys := rfl
@[simp] theorem unimplemented_rnd : (s.unimplemented w).rnd = s.rnd := rfl
@[simp] theorem unimplemented_diag : (s.unimplemented w).diag = some ⟨w, s.pc⟩ := rfl
@[simp] theorem unimplemented_loadReport : (s.unimplemented w).loadReport = s.loadReport := rfl
@[simp] theorem unimplemented_events : (s.unimplemented w).events = s.events := rfl
@[simp] theorem unimplemented_draws : (s.unimplemented w).draws = s.draws := rfl
end

end Updates

end Sys2Proof.Machine
end

