-- ==== Sys2Proof/Laws/Memory.lean ====
section
/-! SUPPORT. The laws of memory: reading after writing, and that every memory operation keeps the canonical form. -/

namespace Sys2Proof.Machine

variable {bg : Nat → Byte}

/-- A canonical memory from `lo` on is canonical from any smaller address on. -/
theorem Memory.wfFrom_mono {lo lo' : Nat} {m : Memory} (h : lo' ≤ lo) (hm : Memory.wfFrom bg lo m = true) :
    Memory.wfFrom bg lo' m = true := by
  cases m with
  | nil => rfl
  | cons c m =>
    obtain ⟨k, b⟩ := c
    simp only [Memory.wfFrom, Bool.and_eq_true, decide_eq_true_eq] at hm ⊢
    exact ⟨⟨⟨by omega, hm.1.1.2⟩, hm.1.2⟩, hm.2⟩

/-- Below the first listed address a canonical memory reads as the background. -/
theorem Memory.read_below {lo a : Nat} {m : Memory} (hm : Memory.wfFrom bg lo m = true) (h : a < lo) :
    Memory.read bg m a = bg a := by
  induction m generalizing lo with
  | nil => rfl
  | cons c m ih =>
    obtain ⟨k, b⟩ := c
    simp only [Memory.wfFrom, Bool.and_eq_true, decide_eq_true_eq] at hm
    have hk : k ≠ a := by omega
    simp only [Memory.read, hk, if_false]
    exact ih hm.2 (by omega)

/-- Reading after a write: the written byte at its address, everything else as before. -/
theorem Memory.read_write {lo a : Nat} {b : Byte} {m : Memory} (hm : Memory.wfFrom bg lo m = true) (a' : Nat) :
    Memory.read bg (Memory.write bg a b m) a' = if a' = a then b else Memory.read bg m a' := by
  induction m generalizing lo with
  | nil =>
    by_cases hb : b = bg a
    · simp only [Memory.write, hb, if_true, Memory.read]
      split <;> simp_all
    · simp only [Memory.write, hb, if_false, Memory.read, eq_comm (a := a)]
  | cons c m ih =>
    obtain ⟨k, c⟩ := c
    simp only [Memory.wfFrom, Bool.and_eq_true, decide_eq_true_eq] at hm
    have tail := fun (h : a' ≤ k) => Memory.read_below (a := a') hm.2 (by omega)
    simp only [Memory.write]
    split
    · simp only [Memory.read, ih hm.2]
      split <;> split <;> first | rfl | omega
    · split
      · subst a
        by_cases hb : b = bg k
        · simp only [hb, if_true, Memory.read, eq_comm (a := k)]
          split
          · subst a'; exact tail (le_refl _)
          · rfl
        · simp only [hb, if_false, Memory.read, eq_comm (a := k)]
          split <;> rfl
      · by_cases hb : b = bg a
        · simp only [hb, if_true, Memory.read]
          by_cases ha : a' = a
          · subst a'
            have hk : k ≠ a := by omega
            simp only [hk, if_false, if_true]
            exact tail (by omega)
          · simp only [ha, if_false]
        · simp only [hb, if_false, Memory.read, eq_comm (a := a)]

/-- A write keeps the canonical form. -/
theorem Memory.wfFrom_write {lo a : Nat} {b : Byte} {m : Memory} (hm : Memory.wfFrom bg lo m = true)
    (hlo : lo ≤ a) (ha : a < memSize) : Memory.wfFrom bg lo (Memory.write bg a b m) = true := by
  induction m generalizing lo with
  | nil =>
    by_cases hb : b = bg a
    · simp [Memory.write, hb, Memory.wfFrom]
    · simp only [Memory.write, hb, if_false, Memory.wfFrom]
      simp [hlo, ha, hb]
  | cons c m ih =>
    obtain ⟨k, c⟩ := c
    have h0 := hm
    simp only [Memory.wfFrom, Bool.and_eq_true, decide_eq_true_eq] at hm
    simp only [Memory.write]
    split
    · simp only [Memory.wfFrom, Bool.and_eq_true, decide_eq_true_eq]
      exact ⟨hm.1, ih hm.2 (by omega)⟩
    · split
      · by_cases hb : b = bg a
        · simp only [hb, if_true]
          exact Memory.wfFrom_mono (by omega) hm.2
        · simp only [hb, if_false, Memory.wfFrom, Bool.and_eq_true, decide_eq_true_eq]
          exact ⟨⟨⟨hlo, ha⟩, by simp [hb]⟩, Memory.wfFrom_mono (by omega) hm.2⟩
      · by_cases hb : b = bg a
        · simp only [hb, if_true]; exact h0
        · simp only [hb, if_false]
          rw [Memory.wfFrom]
          simp only [Bool.and_eq_true, decide_eq_true_eq]
          refine ⟨⟨⟨hlo, ha⟩, by simp [hb]⟩, ?_⟩
          simp only [Memory.wfFrom, Bool.and_eq_true, decide_eq_true_eq]
          exact ⟨⟨⟨by omega, hm.1.1.2⟩, hm.1.2⟩, hm.2⟩

/-- A write inside the memory keeps the canonical form. -/
theorem Memory.wf_write {a : Nat} {b : Byte} {m : Memory} (hm : Memory.wf bg m = true) (ha : a < memSize) :
    Memory.wf bg (Memory.write bg a b m) = true := Memory.wfFrom_write hm (Nat.zero_le _) ha

/-- A block write inside the memory keeps the canonical form. -/
theorem Memory.wf_writeBytes {a : Nat} {bs : List Byte} {m : Memory} (hm : Memory.wf bg m = true)
    (ha : a + bs.length ≤ memSize) : Memory.wf bg (Memory.writeBytes bg a bs m) = true := by
  induction bs generalizing a m with
  | nil => exact hm
  | cons b bs ih =>
    simp only [List.length_cons] at ha
    exact ih (Memory.wf_write hm (by omega)) (by omega)

/-- Reading after a block write: byte k of the block at `a + k`, everything else as before. -/
theorem Memory.read_writeBytes {a : Nat} {bs : List Byte} {m : Memory} (hm : Memory.wf bg m = true)
    (ha : a + bs.length ≤ memSize) (a' : Nat) :
    Memory.read bg (Memory.writeBytes bg a bs m) a' =
      if h : a ≤ a' ∧ a' - a < bs.length then bs[a' - a]'h.2 else Memory.read bg m a' := by
  induction bs generalizing a m with
  | nil => simp [Memory.writeBytes]
  | cons b bs ih =>
    simp only [List.length_cons] at ha
    rw [Memory.writeBytes, ih (Memory.wf_write hm (by omega)) (by omega),
      Memory.read_write (lo := 0) hm]
    rcases Nat.lt_trichotomy a' a with h | h | h
    · have h1 : ¬ (a + 1 ≤ a' ∧ a' - (a + 1) < bs.length) := by omega
      have h2 : ¬ (a ≤ a' ∧ a' - a < (b :: bs).length) := by omega
      have h3 : a' ≠ a := by omega
      simp only [h1, h2, h3, dif_neg, if_false, not_false_eq_true]
    · subst a'
      have h1 : ¬ (a + 1 ≤ a ∧ a - (a + 1) < bs.length) := by omega
      simp
    · by_cases hl : a' - (a + 1) < bs.length
      · have h1 : a + 1 ≤ a' ∧ a' - (a + 1) < bs.length := by omega
        have h2 : a ≤ a' ∧ a' - a < (b :: bs).length := by simp only [List.length_cons]; omega
        simp only [h1, h2, and_self, dif_pos]
        have e : a' - a = (a' - (a + 1)) + 1 := by omega
        simp only [e, List.getElem_cons_succ]
      · have h1 : ¬ (a + 1 ≤ a' ∧ a' - (a + 1) < bs.length) := by omega
        have h2 : ¬ (a ≤ a' ∧ a' - a < (b :: bs).length) := by simp only [List.length_cons]; omega
        have h3 : a' ≠ a := by omega
        simp only [h1, h2, h3, dif_neg, if_false, not_false_eq_true]

/-- The memory made from a block is canonical. -/
theorem Memory.wfFrom_ofBytes {lo a : Nat} {bs : List Byte} (hlo : lo ≤ a) (ha : a + bs.length ≤ memSize) :
    Memory.wfFrom bg lo (Memory.ofBytes bg a bs) = true := by
  induction bs generalizing lo a with
  | nil => rfl
  | cons b bs ih =>
    simp only [List.length_cons] at ha
    by_cases hb : b = bg a
    · simp only [Memory.ofBytes, hb, if_true]
      exact ih (by omega) (by omega)
    · simp only [Memory.ofBytes, hb, if_false, Memory.wfFrom, Bool.and_eq_true, decide_eq_true_eq]
      exact ⟨⟨⟨hlo, by omega⟩, by simp [hb]⟩, ih (by omega) (by omega)⟩

/-- The memory made from a block reads as the block, and as the background elsewhere. -/
theorem Memory.read_ofBytes {a : Nat} {bs : List Byte} (a' : Nat) :
    Memory.read bg (Memory.ofBytes bg a bs) a' =
      if h : a ≤ a' ∧ a' - a < bs.length then bs[a' - a]'h.2 else bg a' := by
  induction bs generalizing a with
  | nil => simp [Memory.ofBytes, Memory.read]
  | cons b bs ih =>
    have key : Memory.read bg (Memory.ofBytes bg a (b :: bs)) a' =
        if a' = a then b else Memory.read bg (Memory.ofBytes bg (a + 1) bs) a' := by
      by_cases hb : b = bg a
      · simp only [Memory.ofBytes, hb, if_true]
        split
        · subst a'; rw [ih, dif_neg (by omega)]
        · rfl
      · simp only [Memory.ofBytes, hb, if_false, Memory.read, eq_comm (a := a)]
    rw [key]
    rcases Nat.lt_trichotomy a' a with h | h | h
    · rw [if_neg (by omega), ih, dif_neg (by omega), dif_neg (by omega)]
    · subst a'; simp
    · rw [if_neg (by omega), ih]
      have e : a' - a = (a' - (a + 1)) + 1 := by omega
      by_cases hl : a' - (a + 1) < bs.length
      · rw [dif_pos ⟨by omega, hl⟩, dif_pos ⟨by omega, by simp only [List.length_cons]; omega⟩]
        simp only [e, List.getElem_cons_succ]
      · rw [dif_neg (by omega), dif_neg (by simp only [List.length_cons]; omega)]

/-- The reset memory lists nothing and is canonical. -/
theorem reset_mem_wf : Memory.wf State.reset.config.background State.reset.mem = true := rfl

/-- Storing a block that fits: the bytes of the block, and every other byte as before. -/
theorem byteAt_storeBytes {s : State} {a : Nat} {bs : List Byte}
    (hm : Memory.wf s.config.background s.mem = true) (ha : a + bs.length ≤ memSize) (a' : Nat) :
    (s.storeBytes a bs).byteAt a' = if h : a ≤ a' ∧ a' - a < bs.length then bs[a' - a]'h.2 else s.byteAt a' :=
  Memory.read_writeBytes hm ha a'

end Sys2Proof.Machine
end

