-- ==== Sys2Proof/Laws/Ops.lean ====
section
/-! SUPPORT. One lemma for each shared operation, saying once everything it can do. -/

namespace Sys2Proof.Machine

/-! ### Registers -/

@[simp] theorem reg_setReg (s : State) (x r : RegIdx) (b : Byte) :
    (s.setReg x b).reg r = if r = x then b else s.reg r := by
  simp only [State.reg, State.setReg, Vector.getElem_set]
  by_cases h : r = x
  · simp [h]
  · have : x.toNat ≠ r.toNat := fun e => h (BitVec.eq_of_toNat_eq e.symm)
    simp [h, this]

@[simp] theorem reg_setRegFlag (s : State) (x r : RegIdx) (b f : Byte) :
    (s.setRegFlag x b f).reg r = if r = vf then f else if r = x then b else s.reg r := by
  simp only [State.setRegFlag, reg_setReg]

/-- Two states with the same register file read the same. -/
theorem reg_congr {s t : State} (h : t.v = s.v) (r : RegIdx) : t.reg r = s.reg r := by
  simp only [State.reg, h]

@[simp] theorem reg_advance (s : State) (r : RegIdx) : s.advance.reg r = s.reg r := rfl
@[simp] theorem reg_setPc (s : State) (a : Word) (r : RegIdx) : (s.setPc a).reg r = s.reg r := rfl
@[simp] theorem reg_setI (s : State) (a : Word) (r : RegIdx) : (s.setI a).reg r = s.reg r := rfl
@[simp] theorem reg_storeBytes (s : State) (a : Nat) (bs : List Byte) (r : RegIdx) :
    (s.storeBytes a bs).reg r = s.reg r := rfl
@[simp] theorem reg_raise (s : State) (k : FaultKind) (w : Word) (r : RegIdx) : (s.raise k w).reg r = s.reg r := rfl

/-- Register k of the file, by number. -/
theorem v_eq_reg (s : State) (k : Nat) (h : k < numRegs) : s.v[k]'h = s.reg (BitVec.ofNat 4 k) := by
  have hk : k % 2 ^ 4 = k := Nat.mod_eq_of_lt h
  simp only [State.reg, BitVec.toNat_ofNat, hk]

/-! ### Reading memory -/

theorem byteAt_congr {s t : State} (hc : t.config = s.config) (hm : t.mem = s.mem) (a : Nat) :
    t.byteAt a = s.byteAt a := by simp only [State.byteAt, hc, hm]

@[simp] theorem byteAt_advance (s : State) (a : Nat) : s.advance.byteAt a = s.byteAt a := rfl
@[simp] theorem byteAt_setReg (s : State) (x : RegIdx) (b : Byte) (a : Nat) :
    (s.setReg x b).byteAt a = s.byteAt a := rfl
@[simp] theorem byteAt_setI (s : State) (w : Word) (a : Nat) : (s.setI w).byteAt a = s.byteAt a := rfl
@[simp] theorem byteAt_raise (s : State) (k : FaultKind) (w : Word) (a : Nat) :
    (s.raise k w).byteAt a = s.byteAt a := rfl

/-! ### The range check and the fault entry -/

theorem firstOutOfRange_eq_none {base len : Nat} :
    firstOutOfRange base len = none ↔ len = 0 ∨ base + len ≤ memSize := by
  unfold firstOutOfRange; split <;> simp_all

/-- The address reported is the lowest of the block's addresses above 0xFFF. -/
theorem firstOutOfRange_eq_some {base len a : Nat} :
    firstOutOfRange base len = some a ↔
      (base ≤ a ∧ a < base + len ∧ memSize ≤ a) ∧ ∀ b, base ≤ b → b < base + len → memSize ≤ b → a ≤ b := by
  unfold firstOutOfRange
  split
  · rename_i h
    simp only [reduceCtorEq, false_iff]
    rintro ⟨⟨h1, h2, h3⟩, -⟩
    omega
  · rename_i h
    simp only [Option.some.injEq]
    constructor
    · rintro rfl
      refine ⟨⟨by omega, by omega, by omega⟩, fun b h1 _ h3 => by omega⟩
    · rintro ⟨⟨h1, h2, h3⟩, h4⟩
      have := h4 (max base memSize) (by omega) (by omega) (by omega)
      omega

theorem guardRange_ok {s ok : State} {base len : Nat} (h : len = 0 ∨ base + len ≤ memSize) :
    s.guardRange base len ok = ok := by
  simp only [State.guardRange, firstOutOfRange_eq_none.2 h]

theorem guardRange_fault {s ok : State} {base len : Nat} (h : ¬ (len = 0 ∨ base + len ≤ memSize)) :
    s.guardRange base len ok = s.raise .memoryFault (BitVec.ofNat 16 (max base memSize)) := by
  simp only [State.guardRange, firstOutOfRange, if_neg h]

/-- Everything a guarded access can do. -/
theorem guardRange_cases (s ok : State) (base len : Nat) :
    ((len = 0 ∨ base + len ≤ memSize) ∧ s.guardRange base len ok = ok) ∨
    ((len ≠ 0 ∧ memSize < base + len) ∧
      s.guardRange base len ok = s.raise .memoryFault (BitVec.ofNat 16 (max base memSize))) := by
  by_cases h : len = 0 ∨ base + len ≤ memSize
  · exact .inl ⟨h, guardRange_ok h⟩
  · exact .inr ⟨by omega, guardRange_fault h⟩

/-! ### The stack -/

theorem push_ok {s : State} {v info target : Word} (h : s.sp.val < stackDepth) :
    s.push v info target = { s with
      stack := s.stack.set s.sp.val v h, sp := ⟨s.sp.val + 1, Nat.succ_lt_succ h⟩, pc := target } := by
  simp only [State.push, dif_pos h]

theorem push_full {s : State} {v info target : Word} (h : ¬ s.sp.val < stackDepth) :
    s.push v info target = s.raise .stackOverflow info := by
  simp only [State.push, dif_neg h]

theorem popPc_ok {s : State} {info : Word} (h : 0 < s.sp.val) :
    s.popPc info = { s with
      sp := ⟨s.sp.val - 1, Nat.lt_of_le_of_lt (Nat.sub_le _ _) s.sp.isLt⟩
      pc := s.stack[s.sp.val - 1]'(by have := s.sp.isLt; omega) } := by
  simp only [State.popPc, dif_pos h]

theorem popPc_empty {s : State} {info : Word} (h : ¬ 0 < s.sp.val) :
    s.popPc info = s.raise .stackUnderflow info := by
  simp only [State.popPc, dif_neg h]

/-! ### Skips -/

theorem skipIf_eq (s : State) (c : Bool) : s.skipIf c = { s with pc := if c then s.pc + 4 else s.pc + 2 } := by
  have h : s.pc + 2 + 2 = s.pc + 4 := by rw [BitVec.add_assoc]; rfl
  cases c
  · rfl
  · simp only [State.skipIf, State.setPc, if_true, h]

/-- Everything a key skip can do. -/
theorem keySkip_cases (s : State) (x : RegIdx) (level : Bool) :
    ((s.reg x).toNat ≤ 15 ∧ s.keySkip x level = s.skipIf (s.keyDown (s.reg x).toNat == level)) ∨
    (15 < (s.reg x).toNat ∧ s.keySkip x level = s.raise .keyIndexFault (zextByte (s.reg x))) := by
  by_cases h : (s.reg x).toNat > 15
  · exact .inr ⟨h, by simp only [State.keySkip, if_pos h]⟩
  · exact .inl ⟨by omega, by simp only [State.keySkip, if_neg h]⟩

/-! ### Operands and flags -/

theorem zextByte_eq (b : Byte) : zextByte b = BitVec.ofNat 16 b.toNat := by
  apply BitVec.eq_of_toNat_eq
  simp [zextByte]

theorem zextAddr_eq (nnn : Addr12) : zextAddr nnn = BitVec.ofNat 16 nnn.toNat := by
  apply BitVec.eq_of_toNat_eq
  simp [zextAddr]

/-- A flag as a number. -/
theorem flagByte_decide (p : Prop) [Decidable p] : (flagByte (decide p)).toNat = if p then 1 else 0 := by
  unfold flagByte
  by_cases h : p <;> simp [h]

/-- Everything the policy's flag of OR, AND and XOR can do. -/
theorem logicFlag_cases (s t : State) :
    (s.config.policy.logicVf = true ∧ s.logicFlag t = t.setReg vf 0) ∨
    (s.config.policy.logicVf = false ∧ s.logicFlag t = t) := by
  unfold State.logicFlag
  cases s.config.policy.logicVf
  · exact .inr ⟨rfl, rfl⟩
  · exact .inl ⟨rfl, rfl⟩

/-- `I` after a block access that fits. -/
theorem blockEndI_toNat {s : State} {x : RegIdx} (h : s.i.toNat + x.toNat < memSize) :
    (s.blockEndI x).toNat = if s.config.policy.memInc then s.i.toNat + x.toNat + 1 else s.i.toNat := by
  have h' : s.i.toNat + x.toNat < 4096 := h
  unfold State.blockEndI
  split
  · rw [BitVec.toNat_ofNat]; omega
  · rfl

theorem regBlock_length (s : State) (x : RegIdx) : (s.regBlock x).length = x.toNat + 1 := by
  have := x.isLt
  simp [State.regBlock]
  omega

/-- Byte k of the block `FX55` stores is V[k]. -/
theorem regBlock_getElem (s : State) (x : RegIdx) (k : Nat) (h : k < (s.regBlock x).length) :
    (s.regBlock x)[k] = s.v[k]'(by rw [regBlock_length] at h; show k < 16; have := x.isLt; omega) := by
  simp [State.regBlock]

/-! ### Keys and timers -/

/-- No key is captured when none is down. -/
theorem lowestKey_zero : lowestKey 0 = none := by decide

/-- The captured key is down and no lower one is. -/
theorem lowestKey_eq_some {keys : Keys} {k : Nibble} (h : keys.getLsbD k.toNat = true)
    (hl : ∀ j, j < k.toNat → keys.getLsbD j = false) : lowestKey keys = some k := by
  have e : (List.range 16).find? (fun k => keys.getLsbD k) = some k.toNat := by
    rw [List.find?_range_eq_some]
    exact ⟨h, by simpa using k.isLt, fun j hj => by simp [hl j hj]⟩
  simp [lowestKey, e]

/-- Everything the key wait can do. -/
theorem keyWait_cases (s : State) (x : RegIdx) :
    (s.kwValid = false ∧ lowestKey s.keys = none ∧ execLdVxK x s = .next s) ∨
    (∃ k, s.kwValid = false ∧ lowestKey s.keys = some k ∧
      execLdVxK x s = .next { s with kwKey := k, kwValid := true }) ∨
    (s.kwValid = true ∧ s.keyDown s.kwKey.toNat = true ∧ execLdVxK x s = .next s) ∨
    (s.kwValid = true ∧ s.keyDown s.kwKey.toNat = false ∧
      execLdVxK x s = .next { s.advance.setReg x (s.kwKey.setWidth 8) with kwValid := false }) := by
  unfold execLdVxK State.keyCapture State.keyRelease
  cases s.kwValid
  · cases hk : lowestKey s.keys with
    | none => exact .inl ⟨rfl, rfl, rfl⟩
    | some k => exact .inr (.inl ⟨k, rfl, rfl, rfl⟩)
  · cases hd : s.keyDown s.kwKey.toNat
    · exact .inr (.inr (.inr ⟨rfl, rfl, rfl⟩))
    · exact .inr (.inr (.inl ⟨rfl, rfl, rfl⟩))

theorem countDown_toNat (t : Byte) : (countDown t).toNat = t.toNat - 1 := by
  unfold countDown
  split
  · have := t.isLt
    rw [BitVec.toNat_sub]
    simp
    omega
  · omega

/-! ### The fetch -/

theorem fetch_ok {s : State} (h : s.pc.toNat + 2 ≤ memSize) :
    s.fetch = .ok (wordOfBytes (s.byteAt s.pc.toNat) (s.byteAt (s.pc.toNat + 1))) := by
  simp only [State.fetch, firstOutOfRange_eq_none.2 (Or.inr h)]

theorem fetch_fault {s : State} (h : ¬ s.pc.toNat + 2 ≤ memSize) : s.fetch = .error (max s.pc.toNat memSize) := by
  have h' : ¬ (2 = 0 ∨ s.pc.toNat + 2 ≤ memSize) := by omega
  simp only [State.fetch, firstOutOfRange, if_neg h']

/-- The fetch reads the program counter, the memory and the font only. -/
theorem fetch_congr {s t : State} (hc : t.config = s.config) (hm : t.mem = s.mem) (hp : t.pc = s.pc) :
    t.fetch = s.fetch := by
  simp only [State.fetch, hp, byteAt_congr hc hm]

/-! ### The framebuffer -/

theorem Framebuffer.get_toggle (fb : Framebuffer) (y x y' x' : Nat) :
    Framebuffer.get (Framebuffer.toggle fb y x) y' x' =
      (Framebuffer.get fb y' x' ^^ decide (y' = y ∧ x' = x ∧ y < fbHeight ∧ x < fbWidth)) := by
  by_cases h : y < fbHeight ∧ x < fbWidth
  · by_cases h' : y' < fbHeight ∧ x' < fbWidth
    · simp only [Framebuffer.get, Framebuffer.toggle, dif_pos h, dif_pos h', Vector.getElem_set]
      by_cases hy : y = y'
      · subst y'
        by_cases hx : x = x'
        · subst x'; simp [h.1, h.2]
        · simp [hx, Ne.symm hx]
      · simp [hy, Ne.symm hy]
    · have : ¬ (y' = y ∧ x' = x ∧ y < fbHeight ∧ x < fbWidth) := fun e => h' (by omega)
      simp only [Framebuffer.get, dif_neg h', decide_eq_false this, Bool.xor_false]
  · have : ¬ (y' = y ∧ x' = x ∧ y < fbHeight ∧ x < fbWidth) := fun e => h e.2.2
    simp only [Framebuffer.toggle, dif_neg h, decide_eq_false this, Bool.xor_false]

theorem Framebuffer.get_blank (y x : Nat) : Framebuffer.get Framebuffer.blank y x = false := by
  simp [Framebuffer.get, Framebuffer.blank]

/-- Two framebuffers with the same cells are equal. -/
theorem Framebuffer.ext_get {a b : Framebuffer}
    (h : ∀ y x, y < fbHeight → x < fbWidth → Framebuffer.get a y x = Framebuffer.get b y x) : a = b := by
  apply Vector.ext; intro y hy
  apply Vector.ext; intro x hx
  have := h y x hy hx
  simpa only [Framebuffer.get, hy, hx, and_self, dif_pos] using this

/-! ### The host's events -/

/-- Taking an event touches only the two fields that say which event comes next. -/
theorem takeEvent_eq (s : State) :
    s.takeEvent = { s with events := s.takeEvent.events, draws := s.takeEvent.draws } := by
  unfold State.takeEvent; split <;> rfl

theorem step_eq (s : State) : step s = perform s.nextEvent s.takeEvent := rfl

/-- A run of the core takes one step and goes on from there. -/
theorem run_succ (M : Host.Core) (k : Nat) (s t : M.State) (h : M.step s = .next t) : M.run (k + 1) s = M.run k t := by
  rw [Host.Core.run, h]

/-- Everything a `Step` can do once it has begun in Running. -/
theorem fetchExecute_cases (s : State) :
    (memSize < s.pc.toNat + 2 ∧
      s.fetchExecute = .next (s.raise .memoryFault (BitVec.ofNat 16 (max s.pc.toNat memSize)))) ∨
    (s.pc.toNat + 2 ≤ memSize ∧ ∃ w, s.fetch = .ok w ∧
      ((∃ i, decodeWord w = some i ∧ s.fetchExecute = exec i s) ∨
       (decodeWord w = none ∧ s.fetchExecute = .next (s.unimplemented w)))) := by
  by_cases h : s.pc.toNat + 2 ≤ memSize
  · refine .inr ⟨h, _, fetch_ok h, ?_⟩
    cases hd : decodeWord (wordOfBytes (s.byteAt s.pc.toNat) (s.byteAt (s.pc.toNat + 1))) with
    | some i => exact .inl ⟨i, rfl, by simp only [State.fetchExecute, fetch_ok h, hd]⟩
    | none => exact .inr ⟨rfl, by simp only [State.fetchExecute, fetch_ok h, hd]⟩
  · exact .inl ⟨by omega, by simp only [State.fetchExecute, fetch_fault h]⟩

end Sys2Proof.Machine
end

