-- ==== Sys2Proof/Laws/Draw.lean ====
section
/-! SUPPORT. What the drawing loop of `DXYN` does, cell by cell: each loop is unrolled once, by induction on the number
of columns or rows it has drawn. -/

namespace Sys2Proof.Machine

theorem Canvas.plot_fb (k : Canvas) (y x : Nat) (bit : Bool) (y' x' : Nat) :
    Framebuffer.get (k.plot y x bit).fb y' x' =
      (Framebuffer.get k.fb y' x' ^^ (bit && decide (y' = y ∧ x' = x ∧ y < fbHeight ∧ x < fbWidth))) := by
  by_cases h : bit ∧ x < fbWidth
  · rw [Canvas.plot, if_pos h, h.1, Bool.true_and]
    exact Framebuffer.get_toggle ..
  · simp only [Canvas.plot, if_neg h]
    cases bit
    · simp
    · have hx : ¬ x < fbWidth := fun e => h ⟨rfl, e⟩
      simp [hx]

theorem Canvas.plot_hit (k : Canvas) (y x : Nat) (bit : Bool) :
    (k.plot y x bit).hit = (k.hit || (bit && Framebuffer.get k.fb y x)) := by
  by_cases h : bit ∧ x < fbWidth
  · rw [Canvas.plot, if_pos h, h.1, Bool.true_and]
  · simp only [Canvas.plot, if_neg h]
    cases bit
    · simp
    · have hx : ¬ x < fbWidth := fun e => h ⟨rfl, e⟩
      simp [Framebuffer.get, hx]

/-- The first `n` columns of a row byte. -/
theorem Canvas.drawCols_fb (k : Canvas) (y x0 : Nat) (b : Byte) (n y' x' : Nat) :
    Framebuffer.get ((List.range n).foldl (fun k c => k.plot y (x0 + c) (b.getLsbD (7 - c))) k).fb y' x' =
      (Framebuffer.get k.fb y' x' ^^
        (decide (y' = y ∧ y < fbHeight ∧ x' < fbWidth ∧ x0 ≤ x' ∧ x' < x0 + n) && b.getLsbD (7 - (x' - x0)))) := by
  induction n with
  | zero =>
    have : ¬ (y' = y ∧ y < fbHeight ∧ x' < fbWidth ∧ x0 ≤ x' ∧ x' < x0 + 0) := by omega
    rw [decide_eq_false this, Bool.false_and, Bool.xor_false]
    rfl
  | succ n ih =>
    rw [List.range_succ, List.foldl_append, List.foldl_cons, List.foldl_nil, Canvas.plot_fb, ih, Bool.xor_assoc]
    congr 1
    by_cases hx : x' = x0 + n
    · subst x'
      have h1 : ¬ (y' = y ∧ y < fbHeight ∧ x0 + n < fbWidth ∧ x0 ≤ x0 + n ∧ x0 + n < x0 + n) := by omega
      have h2 : (y' = y ∧ y < fbHeight ∧ x0 + n < fbWidth ∧ x0 ≤ x0 + n ∧ x0 + n < x0 + (n + 1)) ↔
          (y' = y ∧ x0 + n = x0 + n ∧ y < fbHeight ∧ x0 + n < fbWidth) := by omega
      have e : x0 + n - x0 = n := by omega
      simp only [decide_eq_false h1, Bool.false_and, Bool.false_xor, h2, e, Bool.and_comm]
    · have h1 : ¬ (y' = y ∧ x' = x0 + n ∧ y < fbHeight ∧ x0 + n < fbWidth) := by omega
      have h2 : (y' = y ∧ y < fbHeight ∧ x' < fbWidth ∧ x0 ≤ x' ∧ x' < x0 + (n + 1)) ↔
          (y' = y ∧ y < fbHeight ∧ x' < fbWidth ∧ x0 ≤ x' ∧ x' < x0 + n) := by omega
      simp only [decide_eq_false h1, Bool.and_false, Bool.xor_false, h2]

theorem Canvas.drawCols_hit (k : Canvas) (y x0 : Nat) (b : Byte) (n : Nat) :
    ((List.range n).foldl (fun k c => k.plot y (x0 + c) (b.getLsbD (7 - c))) k).hit = true ↔
      k.hit = true ∨ ∃ c, c < n ∧ b.getLsbD (7 - c) = true ∧ Framebuffer.get k.fb y (x0 + c) = true := by
  induction n with
  | zero => simp
  | succ n ih =>
    rw [List.range_succ, List.foldl_append, List.foldl_cons, List.foldl_nil, Canvas.plot_hit, Canvas.drawCols_fb]
    have h1 : ¬ (y = y ∧ y < fbHeight ∧ x0 + n < fbWidth ∧ x0 ≤ x0 + n ∧ x0 + n < x0 + n) := by omega
    rw [decide_eq_false h1, Bool.false_and, Bool.xor_false, Bool.or_eq_true, Bool.and_eq_true, ih]
    constructor
    · rintro ((h | ⟨c, hc, h⟩) | h)
      · exact .inl h
      · exact .inr ⟨c, by omega, h⟩
      · exact .inr ⟨n, by omega, h⟩
    · rintro (h | ⟨c, hc, h⟩)
      · exact .inl (.inl h)
      · rcases Nat.lt_or_eq_of_le (Nat.le_of_lt_succ hc) with hc | rfl
        · exact .inl (.inr ⟨c, hc, h⟩)
        · exact .inr h

/-- The first `rows` rows of a sprite, cell by cell. -/
theorem drawSprite_fb (s : State) (x0 y0 rows y' x' : Nat) :
    Framebuffer.get (s.drawSprite x0 y0 rows).fb y' x' =
      (s.pixel y' x' ^^ (decide (y0 ≤ y' ∧ y' < y0 + rows ∧ y' < fbHeight ∧ x' < fbWidth ∧ x0 ≤ x' ∧ x' < x0 + 8) &&
        (s.byteAt (s.ea (y' - y0))).getLsbD (7 - (x' - x0)))) := by
  unfold State.drawSprite
  induction rows with
  | zero =>
    have : ¬ (y0 ≤ y' ∧ y' < y0 + 0 ∧ y' < fbHeight ∧ x' < fbWidth ∧ x0 ≤ x' ∧ x' < x0 + 8) := by omega
    rw [decide_eq_false this, Bool.false_and, Bool.xor_false]
    rfl
  | succ n ih =>
    rw [List.range_succ, List.foldl_append, List.foldl_cons, List.foldl_nil, Canvas.drawRow, Canvas.drawCols_fb, ih,
      Bool.xor_assoc]
    congr 1
    by_cases hy : y' = y0 + n
    · subst y'
      have h1 : ¬ (y0 ≤ y0 + n ∧ y0 + n < y0 + n ∧ y0 + n < fbHeight ∧ x' < fbWidth ∧ x0 ≤ x' ∧ x' < x0 + 8) := by omega
      have h2 : (y0 ≤ y0 + n ∧ y0 + n < y0 + (n + 1) ∧ y0 + n < fbHeight ∧ x' < fbWidth ∧ x0 ≤ x' ∧ x' < x0 + 8) ↔
          (y0 + n = y0 + n ∧ y0 + n < fbHeight ∧ x' < fbWidth ∧ x0 ≤ x' ∧ x' < x0 + 8) := by omega
      have e : y0 + n - y0 = n := by omega
      simp only [decide_eq_false h1, Bool.false_and, Bool.false_xor, h2, e]
    · have h1 : ¬ (y' = y0 + n ∧ y0 + n < fbHeight ∧ x' < fbWidth ∧ x0 ≤ x' ∧ x' < x0 + 8) := by omega
      have h2 : (y0 ≤ y' ∧ y' < y0 + (n + 1) ∧ y' < fbHeight ∧ x' < fbWidth ∧ x0 ≤ x' ∧ x' < x0 + 8) ↔
          (y0 ≤ y' ∧ y' < y0 + n ∧ y' < fbHeight ∧ x' < fbWidth ∧ x0 ≤ x' ∧ x' < x0 + 8) := by omega
      simp only [decide_eq_false h1, Bool.false_and, Bool.xor_false, h2]

/-- The drawing loop records a collision exactly when some drawn 1 bit falls on a cell that was set before. -/
theorem drawSprite_hit (s : State) (x0 y0 rows : Nat) :
    (s.drawSprite x0 y0 rows).hit = true ↔
      ∃ r c, r < rows ∧ c < 8 ∧ (s.byteAt (s.ea r)).getLsbD (7 - c) = true ∧ s.pixel (y0 + r) (x0 + c) = true := by
  induction rows with
  | zero => simp [State.drawSprite]
  | succ n ih =>
    have step : s.drawSprite x0 y0 (n + 1) = (s.drawSprite x0 y0 n).drawRow (y0 + n) x0 (s.byteAt (s.ea n)) := by
      simp only [State.drawSprite, List.range_succ, List.foldl_append, List.foldl_cons, List.foldl_nil]
    have below : ∀ c, Framebuffer.get (s.drawSprite x0 y0 n).fb (y0 + n) (x0 + c) = s.pixel (y0 + n) (x0 + c) := by
      intro c
      have h : ¬ (y0 ≤ y0 + n ∧ y0 + n < y0 + n ∧ y0 + n < fbHeight ∧ x0 + c < fbWidth ∧ x0 ≤ x0 + c ∧ x0 + c < x0 + 8) := by
        omega
      rw [drawSprite_fb, decide_eq_false h, Bool.false_and, Bool.xor_false]
    rw [step, Canvas.drawRow, Canvas.drawCols_hit, ih]
    constructor
    · rintro (⟨r, c, hr, hc, h⟩ | ⟨c, hc, hb, hp⟩)
      · exact ⟨r, c, by omega, hc, h⟩
      · exact ⟨n, c, by omega, hc, hb, by rw [← below c]; exact hp⟩
    · rintro ⟨r, c, hr, hc, hb, hp⟩
      rcases Nat.lt_or_eq_of_le (Nat.le_of_lt_succ hr) with hr | rfl
      · exact .inl ⟨r, c, hr, hc, hb, hp⟩
      · exact .inr ⟨c, hc, hb, by rw [below c]; exact hp⟩

end Sys2Proof.Machine
end

