-- ==== Sys2Proof/Laws/Encoding.lean ====
section
/-! SUPPORT. Concatenated fields as numbers, at the widths the encodings use: each turns a statement about the bits of
a word into linear arithmetic. Then what placing a word does: the very next fetch reads it. -/

namespace Sys2Proof

theorem toNat_append_4_4 (a b : BitVec 4) : (a ++ b : BitVec 8).toNat = a.toNat * 16 + b.toNat := by
  have h : (a ++ b).toNat = a.toNat <<< 4 ||| b.toNat := BitVec.toNat_append a b
  rw [← Nat.shiftLeft_add_eq_or_of_lt b.isLt, Nat.shiftLeft_eq] at h
  exact h

theorem toNat_append_4_8 (a : BitVec 4) (b : BitVec 8) : (a ++ b : BitVec 12).toNat = a.toNat * 256 + b.toNat := by
  have h : (a ++ b).toNat = a.toNat <<< 8 ||| b.toNat := BitVec.toNat_append a b
  rw [← Nat.shiftLeft_add_eq_or_of_lt b.isLt, Nat.shiftLeft_eq] at h
  exact h

theorem toNat_append_4_12 (a : BitVec 4) (b : BitVec 12) : (a ++ b : BitVec 16).toNat = a.toNat * 4096 + b.toNat := by
  have h : (a ++ b).toNat = a.toNat <<< 12 ||| b.toNat := BitVec.toNat_append a b
  rw [← Nat.shiftLeft_add_eq_or_of_lt b.isLt, Nat.shiftLeft_eq] at h
  exact h

theorem toNat_append_8_4 (a : BitVec 8) (b : BitVec 4) : (a ++ b : BitVec 12).toNat = a.toNat * 16 + b.toNat := by
  have h : (a ++ b).toNat = a.toNat <<< 4 ||| b.toNat := BitVec.toNat_append a b
  rw [← Nat.shiftLeft_add_eq_or_of_lt b.isLt, Nat.shiftLeft_eq] at h
  exact h

theorem toNat_append_8_8 (a b : BitVec 8) : (a ++ b : BitVec 16).toNat = a.toNat * 256 + b.toNat := by
  have h : (a ++ b).toNat = a.toNat <<< 8 ||| b.toNat := BitVec.toNat_append a b
  rw [← Nat.shiftLeft_add_eq_or_of_lt b.isLt, Nat.shiftLeft_eq] at h
  exact h

theorem toNat_append_12_4 (a : BitVec 12) (b : BitVec 4) : (a ++ b : BitVec 16).toNat = a.toNat * 16 + b.toNat := by
  have h : (a ++ b).toNat = a.toNat <<< 4 ||| b.toNat := BitVec.toNat_append a b
  rw [← Nat.shiftLeft_add_eq_or_of_lt b.isLt, Nat.shiftLeft_eq] at h
  exact h

/-- A word made of two bytes, the more significant first. -/
theorem wordOfBytes_toNat (hi lo : Byte) : (wordOfBytes hi lo).toNat = hi.toNat * 256 + lo.toNat :=
  toNat_append_8_8 hi lo

/-- The two bytes of a word put together again are the word. -/
theorem wordOfBytes_bytesOfWord (w : Word) : wordOfBytes (w.extractLsb' 8 8) (w.extractLsb' 0 8) = w := by
  apply BitVec.eq_of_toNat_eq
  rw [wordOfBytes_toNat, BitVec.extractLsb'_toNat, BitVec.extractLsb'_toNat, Nat.shiftRight_eq_div_pow,
    Nat.shiftRight_eq_div_pow]
  have := w.isLt
  omega

namespace Machine

/-- Where `placeWord` puts the word: two bytes that both exist. -/
theorem placeWord_pc (s : State) (w : Word) : (s.placeWord w).pc.toNat + 2 ≤ memSize := by
  show (if s.pc.toNat + 2 ≤ memSize then s.pc else BitVec.ofNat 16 entryAddr).toNat + 2 ≤ memSize
  split
  · assumption
  · decide

/-- The word that was placed is the word the next fetch reads, and the next event is a `Step` in Running. -/
theorem placeWord_fetch {s : State} (w : Word) (hm : Memory.wf s.config.background s.mem = true) :
    (s.placeWord w).fetch = .ok w ∧ (s.placeWord w).mode = .running ∧
      (s.placeWord w).nextEvent = .step s.keys s.rnd := by
  refine ⟨?_, rfl, rfl⟩
  have hp := placeWord_pc s w
  rw [fetch_ok hp]
  have hb : ∀ a, (s.placeWord w).byteAt a = (s.storeBytes (s.placeWord w).pc.toNat (bytesOfWord w)).byteAt a :=
    fun _ => rfl
  have hl : (s.placeWord w).pc.toNat + (bytesOfWord w).length ≤ memSize := hp
  have h0 : (s.placeWord w).pc.toNat ≤ (s.placeWord w).pc.toNat ∧
      (s.placeWord w).pc.toNat - (s.placeWord w).pc.toNat < (bytesOfWord w).length := by
    simp [bytesOfWord]
  have h1 : (s.placeWord w).pc.toNat ≤ (s.placeWord w).pc.toNat + 1 ∧
      (s.placeWord w).pc.toNat + 1 - (s.placeWord w).pc.toNat < (bytesOfWord w).length := by
    simp [bytesOfWord]
  rw [hb, hb, byteAt_storeBytes hm hl, byteAt_storeBytes hm hl, dif_pos h0, dif_pos h1]
  simp only [Nat.sub_self, Nat.add_sub_cancel_left, bytesOfWord, List.getElem_cons_zero, List.getElem_cons_succ]
  rw [wordOfBytes_bytesOfWord]

/-- Placing a word keeps the canonical form of the memory. -/
theorem placeWord_wf {s : State} (w : Word) (hm : Memory.wf s.config.background s.mem = true) :
    Memory.wf (s.placeWord w).config.background (s.placeWord w).mem = true :=
  Memory.wf_writeBytes hm (placeWord_pc s w)

end Machine

end Sys2Proof
end

