-- ==== Sys2Proof/Laws/PerInstr.lean ====
section
/-! SUPPORT. The family RowMatch: the encoding of every instruction lies in its own row of the opcode map, one lemma
per constructor (spec/30_encoding.md R48: word `w` is the instruction exactly when `w & mask == match`). -/

namespace Sys2Proof.Laws.RowMatch

/-- The word of the instruction matches the mask and pattern of its row. -/
def Statement (i : Instr) : Prop := i.row.Matches (encodeWord i)

/-- A 4-bit selector before twelve free bits. -/
theorem nibble (p : BitVec 4) (a : BitVec 12) : (p ++ a : BitVec 16) &&& 0xF000 = p ++ 0#12 := by
  have h : (0xF000 : BitVec 16) = BitVec.allOnes 4 ++ (0#12 : BitVec 12) := by decide
  rw [h, BitVec.and_append, BitVec.and_allOnes, BitVec.and_zero]

/-- A 4-bit selector, a free nibble and a fixed byte. -/
theorem nibbleByte (p x : BitVec 4) (b : BitVec 8) :
    (p ++ x ++ b : BitVec 16) &&& 0xF0FF = p ++ 0#4 ++ b := by
  have h : (0xF0FF : BitVec 16) = BitVec.allOnes 4 ++ (0#4 : BitVec 4) ++ BitVec.allOnes 8 := by decide
  rw [h, BitVec.and_append, BitVec.and_append, BitVec.and_allOnes, BitVec.and_allOnes, BitVec.and_zero]

/-- A 4-bit selector, two free nibbles and a fixed nibble. -/
theorem nibbleNibble (p x y n : BitVec 4) :
    (p ++ x ++ y ++ n : BitVec 16) &&& 0xF00F = p ++ 0#4 ++ 0#4 ++ n := by
  have h : (0xF00F : BitVec 16) = BitVec.allOnes 4 ++ (0#4 : BitVec 4) ++ (0#4 : BitVec 4) ++ BitVec.allOnes 4 := by
    decide
  rw [h, BitVec.and_append, BitVec.and_append, BitVec.and_append, BitVec.and_allOnes, BitVec.and_allOnes,
    BitVec.and_zero, BitVec.and_zero]

/-- A 4-bit selector, a free nibble and a free byte. -/
theorem nibbleXnn (p x : BitVec 4) (b : BitVec 8) : (p ++ x ++ b : BitVec 16) &&& 0xF000 = p ++ 0#12 := by
  rw [BitVec.append_assoc]; exact nibble p (x ++ b)

/-- A 4-bit selector and three free nibbles. -/
theorem nibbleXyn (p x y n : BitVec 4) : (p ++ x ++ y ++ n : BitVec 16) &&& 0xF000 = p ++ 0#12 := by
  rw [BitVec.append_assoc, BitVec.append_assoc]; exact nibble p (x ++ (y ++ n))

theorem cls : Statement .cls := rfl
theorem ret : Statement .ret := rfl
theorem jp (nnn : Addr12) : Statement (.jp nnn) := nibble ..
theorem call (nnn : Addr12) : Statement (.call nnn) := nibble ..
theorem seImm (x : RegIdx) (nn : Byte) : Statement (.seImm x nn) := nibbleXnn ..
theorem sneImm (x : RegIdx) (nn : Byte) : Statement (.sneImm x nn) := nibbleXnn ..
theorem seReg (x y : RegIdx) : Statement (.seReg x y) := nibbleNibble ..
theorem ldImm (x : RegIdx) (nn : Byte) : Statement (.ldImm x nn) := nibbleXnn ..
theorem addImm (x : RegIdx) (nn : Byte) : Statement (.addImm x nn) := nibbleXnn ..
theorem ldReg (x y : RegIdx) : Statement (.ldReg x y) := nibbleNibble ..
theorem orReg (x y : RegIdx) : Statement (.orReg x y) := nibbleNibble ..
theorem andReg (x y : RegIdx) : Statement (.andReg x y) := nibbleNibble ..
theorem xorReg (x y : RegIdx) : Statement (.xorReg x y) := nibbleNibble ..
theorem addReg (x y : RegIdx) : Statement (.addReg x y) := nibbleNibble ..
theorem sub (x y : RegIdx) : Statement (.sub x y) := nibbleNibble ..
theorem shr (x y : RegIdx) : Statement (.shr x y) := nibbleNibble ..
theorem subn (x y : RegIdx) : Statement (.subn x y) := nibbleNibble ..
theorem shl (x y : RegIdx) : Statement (.shl x y) := nibbleNibble ..
theorem sneReg (x y : RegIdx) : Statement (.sneReg x y) := nibbleNibble ..
theorem ldI (nnn : Addr12) : Statement (.ldI nnn) := nibble ..
theorem jpOff (x : RegIdx) (nnn : Addr12) : Statement (.jpOff x nnn) := nibble ..
theorem rnd (x : RegIdx) (nn : Byte) : Statement (.rnd x nn) := nibbleXnn ..
theorem drw (x y : RegIdx) (n : Nibble) : Statement (.drw x y n) := nibbleXyn ..
theorem skp (x : RegIdx) : Statement (.skp x) := nibbleByte ..
theorem sknp (x : RegIdx) : Statement (.sknp x) := nibbleByte ..
theorem ldVxDt (x : RegIdx) : Statement (.ldVxDt x) := nibbleByte ..
theorem ldVxK (x : RegIdx) : Statement (.ldVxK x) := nibbleByte ..
theorem ldDtVx (x : RegIdx) : Statement (.ldDtVx x) := nibbleByte ..
theorem ldStVx (x : RegIdx) : Statement (.ldStVx x) := nibbleByte ..
theorem addI (x : RegIdx) : Statement (.addI x) := nibbleByte ..
theorem ldF (x : RegIdx) : Statement (.ldF x) := nibbleByte ..
theorem ldB (x : RegIdx) : Statement (.ldB x) := nibbleByte ..
theorem stRegs (x : RegIdx) : Statement (.stRegs x) := nibbleByte ..
theorem ldRegs (x : RegIdx) : Statement (.ldRegs x) := nibbleByte ..

end Sys2Proof.Laws.RowMatch
end

