-- ==== Sys2Proof/Tests/Slice0.lean ====
section
/-! SUPPORT. The model's own tests: the ill-formed term, a word for every constructor written out from its encoding,
one step of every instruction on the vectors of spec/95_test_vectors.md, the other events, and for every statement
with hypotheses a state and operands that meet them. -/

namespace Sys2Proof.Tests

open Sys2Proof.Machine Sys2Proof.Claim

/-! ### Helpers -/

/-- The outcome is a next state with the property. -/
def nextIs (o : Outcome) (p : State → Bool) : Bool :=
  match o with
  | .next t => p t
  | .fault _ => false
  | .refused _ => false

/-- The start state of the vectors under Base. -/
def base : State := State.reset

/-- The start state of the vectors under Ext. -/
def ext : State := { State.reset with config := ⟨Policy.extended, defaultFont⟩ }

/-- A start state with one register set. -/
def with1 (s : State) (x : RegIdx) (b : Byte) : State := s.setReg x b

/-- A start state with two registers set. -/
def with2 (s : State) (x : RegIdx) (b : Byte) (y : RegIdx) (c : Byte) : State := (s.setReg x b).setReg y c

/-- A start state with three registers set. -/
def with3 (s : State) (x : RegIdx) (b : Byte) (y : RegIdx) (c : Byte) (z : RegIdx) (d : Byte) : State :=
  ((s.setReg x b).setReg y c).setReg z d

/-- One `Step` of the word, placed where the state fetches, ends in a next state with the property. -/
def ran (s : State) (w : Nat) (p : State → Bool) : Bool := nextIs (step (s.withFetchWord 16 w)) p

/-- One event ends in a next state with the property. -/
def after (e : HostEvent) (s : State) (p : State → Bool) : Bool := nextIs (step { s with events := [e] }) p

/-- Halted with this cause code, `FPC` and `FINFO`, and `PC` at the faulting instruction. -/
def halted (t : State) (c : BitVec 3) (p i : Word) : Bool :=
  t.mode == .halted && t.fcauseCode == c && t.fpc == p && t.finfo == i && t.pc == p

/-! ### WellFormed: the one check, with an ill-formed term it refuses (R73: X is the top nibble of NNN) -/

theorem test_wellFormed_jpOff_refuses : (Instr.jpOff 3 0x234).wellFormed = false := by decide
theorem test_wellFormed_jpOff_accepts : (Instr.jpOff 2 0x234).wellFormed = true := by decide

/-! ### Decoding: the bits of R48 written out, a word for every constructor -/

theorem test_decode_control :
    decodeWord 0b0000_0000_1110_1110 = some (.ret) ∧
    decodeWord 0b0001_1010_1011_1100 = some (.jp 0xABC) ∧
    decodeWord 0b0010_0010_0000_1010 = some (.call 0x20A) ∧
    decodeWord 0b1011_0010_0011_0100 = some (.jpOff 2 0x234) ∧
    decodeWord 0b0011_0011_0010_1010 = some (.seImm 3 0x2A) ∧
    decodeWord 0b0100_0011_0010_1010 = some (.sneImm 3 0x2A) ∧
    decodeWord 0b0101_0001_0010_0000 = some (.seReg 1 2) ∧
    decodeWord 0b1001_0001_0010_0000 = some (.sneReg 1 2) ∧
    decodeWord 0b1110_0100_1001_1110 = some (.skp 4) ∧
    decodeWord 0b1110_0100_1010_0001 = some (.sknp 4) := by decide

theorem test_decode_load_add :
    decodeWord 0b0110_1010_0000_0101 = some (.ldImm 0xA 5) ∧
    decodeWord 0b0111_0001_1111_1111 = some (.addImm 1 0xFF) ∧
    decodeWord 0b1000_0001_0010_0000 = some (.ldReg 1 2) ∧
    decodeWord 0b1100_0011_0000_1111 = some (.rnd 3 0xF) := by decide

theorem test_decode_alu :
    decodeWord 0b1000_0001_0010_0001 = some (.orReg 1 2) ∧
    decodeWord 0b1000_0001_0010_0010 = some (.andReg 1 2) ∧
    decodeWord 0b1000_0001_0010_0011 = some (.xorReg 1 2) ∧
    decodeWord 0b1000_0001_0010_0100 = some (.addReg 1 2) ∧
    decodeWord 0b1000_0001_0010_0101 = some (.sub 1 2) ∧
    decodeWord 0b1000_0000_0001_0110 = some (.shr 0 1) ∧
    decodeWord 0b1000_0001_0010_0111 = some (.subn 1 2) ∧
    decodeWord 0b1000_0001_0010_1110 = some (.shl 1 2) := by decide

theorem test_decode_index :
    decodeWord 0b1010_0011_0000_0000 = some (.ldI 0x300) ∧
    decodeWord 0b1111_0010_0001_1110 = some (.addI 2) ∧
    decodeWord 0b1111_1010_0010_1001 = some (.ldF 0xA) ∧
    decodeWord 0b1111_0000_0011_0011 = some (.ldB 0) ∧
    decodeWord 0b1111_0001_0101_0101 = some (.stRegs 1) ∧
    decodeWord 0b1111_0010_0110_0101 = some (.ldRegs 2) := by decide

theorem test_decode_display_timer :
    decodeWord 0b0000_0000_1110_0000 = some (.cls) ∧
    decodeWord 0b1101_1010_1011_0101 = some (.drw 0xA 0xB 5) ∧
    decodeWord 0b1111_0011_0000_0111 = some (.ldVxDt 3) ∧
    decodeWord 0b1111_0101_0000_1010 = some (.ldVxK 5) ∧
    decodeWord 0b1111_0011_0001_0101 = some (.ldDtVx 3) ∧
    decodeWord 0b1111_0011_0001_1000 = some (.ldStVx 3) := by decide

/-- Near misses of the patterns and other words of R50 are no instruction. -/
theorem test_decode_unimplemented :
    [0x0000, 0x0123, 0x00E1, 0x00FF, 0x01E0, 0x01EE, 0x5121, 0x8128, 0x812F, 0x9121, 0xE19F, 0xE1A0, 0xF100, 0xF175,
      0xF185, 0xFFFF].all (fun w => decodeWord w == none) = true := by decide

/-- The byte at the lower address is the more significant (R32); a decoder consumes two bytes (R45). -/
theorem test_decode_bytes : decode [0x12, 0x34, 0x56] = .ok (.jp 0x234, [0x56]) := rfl

theorem test_decode_truncated : decode [0x12] = .error .truncated := rfl

theorem test_encode_bytes : encode (.drw 0xA 0xB 5) = [0xDA, 0xB5] := by decide

theorem test_decodeTableWord : decodeTableWord 16 0x8016 = some (.shr 0 1) := by decide

/-! ### One step of each instruction: the vectors of spec/95_test_vectors.md, named by their ids -/

/-- G1. -/
theorem test_cls :
    ran ({ with1 base 15 7 with fb := Framebuffer.toggle Framebuffer.blank 3 4 }) 0x00E0 (fun t => !t.pixel 3 4 &&
      t.dirty && t.reg 15 == 7 && t.pc == 0x202) = true := by decide

/-- CF7, CF6. -/
theorem test_ret :
    ran ({ base with sp := 1, stack := base.stack.set 0 0x456 }) 0x00EE (fun t => t.sp == 0 && t.pc == 0x456) = true ∧
    ran (base) 0x00EE (fun t => halted t 2 0x200 0x00EE) = true := by decide

/-- CF1. -/
theorem test_jp : ran (base) 0x1FFF (fun t => t.pc == 0xFFF) = true := by decide

/-- CF4. -/
theorem test_call :
    ran ({ base with sp := 11 }) 0x2ABC (fun t => t.stack[11] == 0x202 && t.sp == 12 &&
      t.pc == 0xABC) = true := by decide

/-- CF5. -/
theorem test_call_full :
    ran ({ base with sp := 12 }) 0x2ABC (fun t => halted t 1 0x200 0x2ABC && t.sp == 12 &&
      t.stack[11] == 0) = true := by decide

/-- CF18, CF19. -/
theorem test_jpOff :
    ran (with2 base 0 0x10 2 0x40) 0xB234 (fun t => t.pc == 0x244) = true ∧
    ran (with2 ext 0 0x10 2 0x40) 0xB234 (fun t => t.pc == 0x274) = true := by decide

/-- CF20: not masked. -/
theorem test_jpOff_top : ran (with1 base 0 0xFF) 0xBFFF (fun t => t.pc == 0x10FE) = true := by decide

/-- CF8, CF9. -/
theorem test_seImm :
    ran (with1 base 1 0x22) 0x3122 (fun t => t.pc == 0x204) = true ∧
    ran (with1 base 1 0x23) 0x3122 (fun t => t.pc == 0x202) = true := by decide

/-- CF10, CF11. -/
theorem test_sneImm :
    ran (with1 base 1 0x22) 0x4122 (fun t => t.pc == 0x202) = true ∧
    ran (with1 base 1 0x23) 0x4122 (fun t => t.pc == 0x204) = true := by decide

/-- CF12, CF13. -/
theorem test_seReg :
    ran (with2 base 1 9 2 9) 0x5120 (fun t => t.pc == 0x204) = true ∧
    ran (with2 base 1 9 2 8) 0x5120 (fun t => t.pc == 0x202) = true := by decide

/-- CF14, CF15. -/
theorem test_sneReg :
    ran (with2 base 1 9 2 9) 0x9120 (fun t => t.pc == 0x202) = true ∧
    ran (with2 base 1 9 2 8) 0x9120 (fun t => t.pc == 0x204) = true := by decide

/-- CF22, CF23, CF26. -/
theorem test_skp :
    ran ({ with1 base 1 0xA with keys := 0x0400 }) 0xE19E (fun t => t.pc == 0x204) = true ∧
    ran ({ with1 base 1 0xA with keys := 0xFBFF }) 0xE19E (fun t => t.pc == 0x202) = true ∧
    ran ({ with1 base 1 0x10 with keys := 0xFFFF }) 0xE19E (fun t => halted t 4 0x200 0x10) = true := by decide

/-- CF24, CF25, CF27. -/
theorem test_sknp :
    ran ({ with1 base 1 0xA with keys := 0x0400 }) 0xE1A1 (fun t => t.pc == 0x202) = true ∧
    ran ({ with1 base 1 0xA with keys := 0xFBFF }) 0xE1A1 (fun t => t.pc == 0x204) = true ∧
    ran (with1 base 1 0xFF) 0xE1A1 (fun t => halted t 4 0x200 0xFF) = true := by decide

/-- A1. -/
theorem test_ldImm : ran (base) 0x6A05 (fun t => t.reg 10 == 5 && t.pc == 0x202) = true := by decide

/-- A3: no flag. -/
theorem test_addImm : ran (with2 base 1 0xFE 15 7) 0x7105 (fun t => t.reg 1 == 3 && t.reg 15 == 7) = true := by decide

/-- A5. -/
theorem test_ldReg :
    ran (with3 base 1 1 2 0x9C 15 5) 0x8120 (fun t => t.reg 1 == 0x9C && t.reg 2 == 0x9C &&
      t.reg 15 == 5) = true := by decide

/-- A6, A7. -/
theorem test_or :
    ran (with3 base 1 0xF0 2 0x0F 15 0x55) 0x8121 (fun t => t.reg 1 == 0xFF && t.reg 15 == 0) = true ∧
    ran (with3 ext 1 0xF0 2 0x0F 15 0x55) 0x8121 (fun t => t.reg 1 == 0xFF && t.reg 15 == 0x55) = true := by decide

/-- A8, A9. -/
theorem test_and :
    ran (with3 base 1 0xF0 2 0x3C 15 0x55) 0x8122 (fun t => t.reg 1 == 0x30 && t.reg 15 == 0) = true ∧
    ran (with3 ext 1 0xF0 2 0x3C 15 0x55) 0x8122 (fun t => t.reg 1 == 0x30 && t.reg 15 == 0x55) = true := by decide

/-- A10, A13. -/
theorem test_xor :
    ran (with3 base 1 0xFF 2 0x0F 15 0x55) 0x8123 (fun t => t.reg 1 == 0xF0 && t.reg 15 == 0) = true ∧
    ran (with2 ext 1 0x0F 15 0xF0) 0x8F13 (fun t => t.reg 15 == 0xFF) = true := by decide

/-- A14, A17. -/
theorem test_addReg :
    ran (with2 base 1 0xC8 2 0x64) 0x8124 (fun t => t.reg 1 == 0x2C && t.reg 15 == 1) = true ∧
    ran (with2 base 15 0xC8 1 0x64) 0x8F14 (fun t => t.reg 15 == 1) = true := by decide

/-- A19: VF is read before it is written. -/
theorem test_addReg_flag_operand :
    ran (with2 base 1 0xFF 15 1) 0x81F4 (fun t => t.reg 1 == 0 && t.reg 15 == 1) = true := by decide

/-- A20, A21. -/
theorem test_sub :
    ran (with2 base 1 5 2 7) 0x8125 (fun t => t.reg 1 == 0xFE && t.reg 15 == 0) = true ∧
    ran (with2 base 1 7 2 7) 0x8125 (fun t => t.reg 1 == 0 && t.reg 15 == 1) = true := by decide

/-- A25, A26. -/
theorem test_subn :
    ran (with2 base 1 5 2 7) 0x8127 (fun t => t.reg 1 == 2 && t.reg 15 == 1) = true ∧
    ran (with2 base 1 7 2 5) 0x8127 (fun t => t.reg 1 == 0xFE && t.reg 15 == 0) = true := by decide

/-- A27, A28, A31. -/
theorem test_shr :
    ran (with2 base 0 0 1 3) 0x8016 (fun t => t.reg 0 == 1 && t.reg 1 == 3 && t.reg 15 == 1) = true ∧
    ran (with2 ext 0 0 1 3) 0x8016 (fun t => t.reg 0 == 0 && t.reg 1 == 3 && t.reg 15 == 0) = true ∧
    ran (with1 base 15 3) 0x8FF6 (fun t => t.reg 15 == 1) = true := by decide

/-- A29, A30, A32. -/
theorem test_shl :
    ran (with2 base 1 0x81 2 0x40) 0x812E (fun t => t.reg 1 == 0x80 && t.reg 15 == 0) = true ∧
    ran (with2 ext 1 0x81 2 0x40) 0x812E (fun t => t.reg 1 == 2 && t.reg 15 == 1) = true ∧
    ran (with1 base 15 0x81) 0x8FFE (fun t => t.reg 15 == 1) = true := by decide

/-- A33, A36. -/
theorem test_rnd :
    ran ({ base with rnd := 0xA7 }) 0xC30F (fun t => t.reg 3 == 7) = true ∧
    ran ({ with1 base 15 1 with rnd := 0x3C }) 0xCFF0 (fun t => t.reg 15 == 0x30) = true := by decide

/-- M1. -/
theorem test_ldI : ran (base) 0xA123 (fun t => t.i == 0x123) = true := by decide

/-- M2, M3. -/
theorem test_addI :
    ran ({ with2 base 1 2 15 9 with i := 0xFFF }) 0xF11E (fun t => t.i == 0x1001 && t.reg 15 == 9) = true ∧
    ran ({ with1 base 1 2 with i := 0xFFFF }) 0xF11E (fun t => t.i == 1) = true := by decide

/-- M4, M5. -/
theorem test_ldF :
    ran (with1 base 1 0xA) 0xF129 (fun t => t.i == 0x32) = true ∧
    ran (with1 base 1 0xFF) 0xF129 (fun t => t.i == 0x4FB) = true := by decide

/-- M12, M13. -/
theorem test_ldB :
    ran ({ with1 base 1 0x7B with i := 0xFFD }) 0xF133 (fun t => t.byteAt 0xFFD == 1 && t.byteAt 0xFFE == 2 &&
      t.byteAt 0xFFF == 3 && t.i == 0xFFD) = true ∧
    ran ({ with1 base 1 0x7B with i := 0xFFE }) 0xF133 (fun t => halted t 3 0x200 0x1000 && t.byteAt 0xFFE == 0 &&
      t.byteAt 0xFFF == 0) = true := by decide

/-- M15, M21. -/
theorem test_stRegs :
    ran ({ with3 base 0 0x11 1 0x22 4 0x99 with i := 0x400 }) 0xF355 (fun t => t.byteAt 0x400 == 0x11 &&
      t.byteAt 0x401 == 0x22 && t.byteAt 0x404 == 0 && t.i == 0x404) = true ∧
    ran ({ with2 base 0 1 1 2 with i := 0xFFF }) 0xF155 (fun t => halted t 3 0x200 0x1000 &&
      t.byteAt 0xFFF == 0) = true := by decide

/-- M19, M20. -/
theorem test_stRegs_top :
    ran ({ with1 base 0 0x5A with i := 0xFFF }) 0xF055 (fun t => t.byteAt 0xFFF == 0x5A && t.i == 0x1000) = true ∧
    ran ({ with1 ext 0 0x5A with i := 0xFFF }) 0xF055 (fun t => t.byteAt 0xFFF == 0x5A &&
      t.i == 0xFFF) = true := by decide

/-- M17, M22. -/
theorem test_ldRegs :
    ran ({ with1 (base.storeBytes 0x400 [0xAA, 0xBB, 0xCC, 0xDD]) 3 0x77 with i := 0x400 }) 0xF265 (fun t =>
      t.reg 0 == 0xAA && t.reg 1 == 0xBB && t.reg 2 == 0xCC && t.reg 3 == 0x77 && t.i == 0x403) = true ∧
    ran ({ base with i := 0x1000 }) 0xF065 (fun t => halted t 3 0x200 0x1000) = true := by decide

/-- M23, M24. -/
theorem test_ldRegs_all :
    ran ({ with1 base 3 0x77 with i := 0xFF0 }) 0xFF65 (fun t => t.reg 3 == 0 && t.i == 0x1000) = true ∧
    ran ({ base with i := 0xFF1 }) 0xFF65 (fun t => halted t 3 0x200 0x1000) = true := by decide

/-- G2. -/
theorem test_drw_right_clip :
    ran (with1 base 0 0x3E) 0xD015 (fun t => t.pixel 0 62 && t.pixel 0 63 && t.pixel 1 62 && !t.pixel 1 63 &&
      t.pixel 4 63 && !t.pixel 0 0 && !t.pixel 0 1 && t.reg 15 == 0 && t.dirty) = true := by decide

/-- G6, G8. -/
theorem test_drw_collision :
    ran ({ base.storeBytes 0x202 [0xC0] with i := 0x202, fb := (Framebuffer.blank.toggle 0 0).toggle 0 2 }) 0xD011
      (fun t => !t.pixel 0 0 && t.pixel 0 1 && t.pixel 0 2 && t.reg 15 == 1) = true ∧
    ran ({ with1 base 15 9 with i := 0xFFE }) 0xD013 (fun t => halted t 3 0x200 0x1000 && t.reg 15 == 9 &&
      !t.dirty) = true := by decide

/-- K1. -/
theorem test_ldVxDt : ran ({ base with dt := 0x2A }) 0xF107 (fun t => t.reg 1 == 0x2A) = true := by decide

/-- K2. -/
theorem test_ldDtVx : ran (with1 base 1 0x3C) 0xF115 (fun t => t.dt == 0x3C) = true := by decide

/-- K3. -/
theorem test_ldStVx : ran (with1 base 1 2) 0xF118 (fun t => t.st == 2 && !t.audio) = true := by decide

/-- T-KEY, Steps 1 and 2. -/
theorem test_ldVxK_capture :
    ran (base) 0xF50A (fun t => !t.kwValid && t.pc == 0x200) = true ∧
    ran ({ base with keys := 0x0108 }) 0xF50A (fun t => t.kwValid && t.kwKey == 3 &&
      t.pc == 0x200) = true := by decide

/-- T-KEY, Steps 3 and 4. -/
theorem test_ldVxK_release :
    ran ({ base with keys := 0x0008, kwValid := true, kwKey := 3 }) 0xF50A (fun t => t.kwValid &&
      t.pc == 0x200) = true ∧
    ran ({ base with keys := 0x0100, kwValid := true, kwKey := 3 }) 0xF50A (fun t => !t.kwValid && t.reg 5 == 3 &&
      t.pc == 0x202) = true := by decide

/-! ### The step and the other events -/

/-- T-UNI. -/
theorem test_unimplemented :
    ran (with3 base 1 1 2 2 15 3) 0x8128 (fun t => t.pc == 0x202 && t.diag == some ⟨0x8128, 0x200⟩ &&
      t.mode == .running && t.reg 1 == 1 && t.reg 15 == 3) = true := by decide

/-- FF2, FF3, FF4. -/
theorem test_fetch_faults :
    after (.step 0 0) { base with pc := 0xFFF } (fun t => halted t 3 0xFFF 0x1000) = true ∧
    after (.step 0 0) { base with pc := 0x1000 } (fun t => halted t 3 0x1000 0x1000) = true ∧
    after (.step 0 0) { base with pc := 0x10FE } (fun t => halted t 3 0x10FE 0x10FE) = true := by decide

/-- T-ODD, FF1. -/
theorem test_fetch_odd :
    after (.step 0 0) { base.storeBytes 0x203 [0x6A, 0x77] with pc := 0x203 } (fun t => t.reg 10 == 0x77 &&
      t.pc == 0x205) = true ∧
    after (.step 0 0) { base with pc := 0xFFE } (fun t => t.pc == 0x1000 && t.mode == .running) = true := by decide

/-- T-TMR. -/
theorem test_tick :
    after .tick { base with dt := 2, st := 1 } (fun t => t.dt == 1 && t.st == 0 && t.audio) = true ∧
    after .tick { base with audio := true } (fun t => t.dt == 0 && t.st == 0 && !t.audio) = true ∧
    after .tick { base with mode := .paused, dt := 5, st := 3 } (fun t => t.dt == 5 && t.st == 3 &&
      !t.audio) = true := by decide

/-- R141 to R143. -/
theorem test_modes :
    after .pause base (fun t => t.mode == .paused) = true ∧
    after .resume { base with mode := .paused } (fun t => t.mode == .running) = true ∧
    after .resume { base with mode := .halted } (fun t => t.mode == .halted) = true ∧
    after .start { base with mode := .paused } (fun t => t.mode == .paused) = true := by decide

/-- R118. -/
theorem test_flush :
    after .flush { base with dirty := true, mode := .halted } (fun t => !t.dirty &&
      t.mode == .halted) = true := by decide

/-- T-RST. -/
theorem test_reset_event :
    after .reset { base.storeBytes 0x000 [0xAB] with image := [0x22, 0x00], mode := .halted, sp := 12 } (fun t =>
      t.mode == .running && t.byteAt 0 == 0xF0 && t.byteAt 0x200 == 0x22 && t.byteAt 0x202 == 0 && t.sp == 0 &&
      t.pc == 0x200) = true := by decide

/-- T-RST: 3584 bytes fit, 3585 do not. -/
theorem test_load :
    after (.load [0x12, 0x00]) base (fun t => t.byteAt 0x200 == 0x12 && t.image == [0x12, 0x00] &&
      t.loadReport == some .success) = true ∧
    after (.load []) base (fun t => t.image == [] && t.loadReport == some .success) = true ∧
    (∀ image : List Byte, image.length = 3585 → doLoad image base = { base with loadReport := some .loadError }) := by
  refine ⟨by decide, by decide, fun image h => ?_⟩
  rw [doLoad, if_pos (by rw [h]; decide)]

/-- The word is fetched by the very next step, from the top of memory and from a halted machine too. -/
theorem test_withFetchWord :
    ran { base with pc := 0xFFF } 0x1ABC (fun t => t.pc == 0xABC) = true ∧
    ran { base with mode := .halted, fcause := some .memoryFault } 0x1ABC (fun t => t.pc == 0xABC) = true := by
  decide
/-! ### Witnesses: a state and operands that meet the hypotheses of each statement, clause by clause -/

/-- The host's next event is `e`. -/
def host (e : HostEvent) (s : State) : State := { s with events := [e] }

theorem witness_EncodedInstructionDecodesBack :
    (Instr.jpOff 2 0x234).wellFormed = true ∧ (Instr.drw 15 15 15).wellFormed = true := by decide

theorem witness_WordIsTheInstructionWhoseRowItMatches :
    (Instr.row .cls ∈ opcodeTable ∧ (0x00E0 : Word) &&& (Instr.row .cls).mask = (Instr.row .cls).pattern) ∧
    (Instr.row (.ldRegs 0) ∈ opcodeTable ∧ ∃ i, decodeWord 0xFF65 = some i ∧ i.row = Instr.row (.ldRegs 0)) :=
  ⟨by decide, by decide, .ldRegs 15, by decide, by decide⟩

theorem witness_DecodedInstructionEncodesBackToItsWord : decodeWord 0xBFFF = some (.jpOff 15 0xFFF) := by decide

theorem witness_OpcodePatternsArePairwiseDisjoint :
    Instr.row (.shr 0 0) ∈ opcodeTable ∧ (Instr.row (.shr 0 0)).Matches 0x8016 := by decide

/-- The five cases of a `Step`: not Running, an address above 0xFFF, the word across the end, an instruction, a word
that is none; the last instruction address is 0xFFE. -/
theorem witness_StepFetchesDecodesAndExecutes :
    ((host (.step 0 0) { base with mode := .paused }).nextEvent = .step 0 0 ∧
      (host (.step 0 0) { base with mode := .paused }).mode ≠ .running) ∧
    ((host (.step 1 2) { base with pc := 0x1000 }).nextEvent = .step 1 2 ∧
      (host (.step 1 2) { base with pc := 0x1000 }).mode = .running ∧ (0x1000 : Word).toNat > 0xFFF) ∧
    (host (.step 1 2) { base with pc := 0xFFF }).pc.toNat = 0xFFF ∧
    ((host (.step 1 2) { base.storeBytes 0xFFE [0x00, 0xE0] with pc := 0xFFE }).pc.toNat < 0xFFF ∧
      (base.storeBytes 0xFFE [0x00, 0xE0]).byteAt 0xFFE = 0x00 ∧
      (base.storeBytes 0xFFE [0x00, 0xE0]).byteAt 0xFFF = 0xE0 ∧ decodeWord 0x00E0 = some .cls) ∧
    (base.byteAt 0x200 = 0 ∧ base.byteAt 0x201 = 0 ∧ decodeWord 0x0000 = none) := by decide

theorem witness_UnimplementedWordOnlyAdvancesPcAndReports :
    (host (.step 0 0) base).nextEvent = .step 0 0 ∧ (host (.step 0 0) base).mode = .running ∧
    (host (.step 0 0) base).pc.toNat < 0xFFF ∧
    (0x0000 : Word).toNat =
      ((host (.step 0 0) base).byteAt 0x200).toNat * 256 + ((host (.step 0 0) base).byteAt 0x201).toNat ∧
    ∀ r ∈ opcodeTable, (0x0000 : Word) &&& r.mask ≠ r.pattern := by decide

/-- A machine inside a subroutine that waits for key 3 to go up. -/
def waiting : State :=
  { base.storeBytes 0x300 [0xF5, 0x0A] with
    pc := 0x300, sp := 1, stack := base.stack.set 0 0x202, kwValid := true, kwKey := 3, events := [.step 8 0] }

theorem waiting_inv : waiting.Inv where
  memWf := by decide
  imageFits := by decide
  faultIffHalted := by decide
  noFaultRecord := by decide
  pcBound := by decide
  stackBound := by
    intro k h hk
    have h1 : k < 1 := hk
    have h0 : k = 0 := by omega
    subst h0
    show (waiting.stack[0]'(by decide)).toNat ≤ 0x1000
    decide
  keyWait := fun _ => ⟨0xF50A, 5, by rfl, by decide⟩

theorem witness_StepKeepsTheMachineInvariant : waiting.Inv ∧ ∃ t, step waiting = .next t := ⟨waiting_inv, _, rfl⟩

theorem witness_ConfigurationNeverChanges :
    (∃ t, step (host (.load [0x12, 0x00]) base) = .next t) ∧ (∃ t, step waiting = .next t) := ⟨⟨_, rfl⟩, _, rfl⟩

theorem witness_ModeChangesOnlyAsListed :
    (∃ t, step (host .pause base) = .next t) ∧ (∃ t, step (host (.step 0 0) { base with pc := 0xFFF }) = .next t) :=
  ⟨⟨_, rfl⟩, _, rfl⟩

theorem witness_HaltedIsEnteredByFaultAndLeftByReset :
    ((host (.step 0 0) { base with mode := .halted }).mode = .halted ∧
      (host (.step 0 0) { base with mode := .halted }).nextEvent = .step 0 0) ∧
    ((host .tick { base with mode := .halted }).nextEvent = .tick ∧
      (host .pause { base with mode := .halted }).nextEvent = .pause ∧
      (host .resume { base with mode := .halted }).nextEvent = .resume ∧
      (host .start { base with mode := .halted }).nextEvent = .start ∧
      (host .flush { base with mode := .halted }).nextEvent = .flush ∧
      (host .reset { base with mode := .halted }).nextEvent = .reset) ∧
    ((host (.load []) { base with mode := .halted }).nextEvent = .load [] ∧ ([] : List Byte).length ≤ 3584) ∧
    ∃ t, (host (.step 0 0) { base with pc := 0xFFF }).mode ≠ .halted ∧
      step (host (.step 0 0) { base with pc := 0xFFF }) = .next t ∧ t.mode = .halted :=
  ⟨by decide, by decide, by decide, _, by decide, rfl, rfl⟩

/-- A `Step` that faults and one that does not. -/
theorem witness_FaultingStepDiscardsEveryWriteAndRecords :
    ((host (.step 0 0) { base with pc := 0xFFF }).nextEvent = .step 0 0 ∧
      (host (.step 0 0) { base with pc := 0xFFF }).mode = .running ∧
      stepFault (stepBegun (host (.step 0 0) { base with pc := 0xFFF }) 0 0) = some (.memoryFault, 0x1000)) ∧
    ((host (.step 0 0) base).mode = .running ∧ stepFault (stepBegun (host (.step 0 0) base) 0 0) = none) := by
  decide

theorem witness_EachStateElementHasOnlyItsListedWriters :
    (∃ t, exec (.ldImm 15 7) base = .next t) ∧ (∀ a, Instr.ldImm 15 7 ≠ .call a) ∧ Instr.ldImm 15 7 ≠ .ret ∧
    (∀ x, Instr.ldImm 15 7 ≠ .ldB x) ∧ (∀ x, Instr.ldImm 15 7 ≠ .stRegs x) ∧ Instr.ldImm 15 7 ≠ .cls ∧
    (∀ x y n, Instr.ldImm 15 7 ≠ .drw x y n) ∧ (∀ a, Instr.ldImm 15 7 ≠ .ldI a) ∧ (∀ x, Instr.ldImm 15 7 ≠ .addI x) ∧
    (∀ x, Instr.ldImm 15 7 ≠ .ldF x) ∧ (∀ x, Instr.ldImm 15 7 ≠ .ldRegs x) ∧ (∀ x, Instr.ldImm 15 7 ≠ .ldDtVx x) ∧
    (∀ x, Instr.ldImm 15 7 ≠ .ldStVx x) ∧ (∀ x, Instr.ldImm 15 7 ≠ .ldVxK x) := by
  refine ⟨⟨_, rfl⟩, ?_⟩
  simp

/-- The same clause for `I`, met by a store that does not advance it. -/
theorem witness_EachStateElement_store_without_increment :
    (∃ t, exec (.stRegs 15) ext = .next t) ∧ ext.config.policy.memInc = false := ⟨⟨_, rfl⟩, rfl⟩

theorem witness_RegistersAreWrittenOnlyAsDestinationOrFlag :
    (∃ t, exec (.shr 3 4) base = .next t) ∧ ¬ mayWriteReg (.shr 3 4) 4 ∧ ¬ mayWriteReg (.ldRegs 2) 3 := by
  refine ⟨⟨_, rfl⟩, ?_, ?_⟩ <;> simp [mayWriteReg]

theorem witness_ProgramCounterStaysOnFaultElseAdvancesByTwo :
    (∃ t, exec .ret base = .next t) ∧ faultOf .ret base ≠ none ∧
    (∃ t, exec (.ldB 0) base = .next t) ∧ faultOf (.ldB 0) base = none ∧ ¬ isControl (.ldB 0) := by
  refine ⟨⟨_, rfl⟩, by decide, ⟨_, rfl⟩, by decide, by simp [isControl]⟩

/-- Two states that differ in everything a program cannot see. -/
theorem witness_ProgramCannotObserveOutputState :
    sameToProgram base
      { base with dirty := true, audio := true, st := 9, mode := .halted, fcause := some .memoryFault, fpc := 1,
                  finfo := 2, stack := base.stack.set 3 0x777, diag := some ⟨0, 0⟩, draws := 5 } ∧
    (∃ t, exec (.ldVxDt 1) base = .next t) := by
  refine ⟨⟨rfl, rfl, rfl, rfl, rfl, rfl, ?_, rfl, rfl, rfl, rfl, rfl, rfl⟩, _, rfl⟩
  intro k hk
  exact absurd hk (by show ¬ k < 0; omega)

theorem witness_ResetEventRestoresEveryElement : (host .reset waiting).nextEvent = .reset := by decide

/-- The longest image, the shortest, and one byte too many. -/
theorem witness_LoadReplacesTheImageOrChangesNothing :
    (∀ image, (host (.load image) base).nextEvent = .load image) ∧
    (List.replicate 3584 (0xFF : Byte)).length ≤ 3584 ∧ ([] : List Byte).length ≤ 3584 ∧
    (List.replicate 3585 (0xFF : Byte)).length > 3584 := by
  exact ⟨fun _ => rfl, le_of_eq List.length_replicate, by decide, by rw [List.length_replicate]; omega⟩

theorem witness_TickSamplesAudioThenCountsDown :
    ((host .tick { base with dt := 1, st := 0 }).nextEvent = .tick ∧
      (host .tick { base with dt := 1, st := 0 }).mode = .running) ∧
    (host .tick { base with mode := .paused }).mode ≠ .running := by decide

theorem witness_TimersAfterManyTicks :
    ({ base with dt := 2, events := [.tick, .tick, .tick, .flush] } : State).mode = .running ∧
    ({ base with dt := 2, events := [.tick, .tick, .tick, .flush] } : State).events =
      List.replicate 3 .tick ++ [.flush] := by decide

theorem witness_PauseResumeAndStart :
    ((host .pause base).nextEvent = .pause ∧ (host .pause base).mode = .running) ∧
    (host .pause { base with mode := .halted }).mode ≠ .running ∧
    ((host .resume { base with mode := .paused }).nextEvent = .resume ∧
      (host .resume { base with mode := .paused }).mode = .paused) ∧
    (host .resume base).mode ≠ .paused ∧ (host .start base).nextEvent = .start ∧
    (host (.step 1 2) { base with mode := .paused }).nextEvent = .step 1 2 ∧
    (host .tick { base with mode := .paused }).nextEvent = .tick ∧
    (host .flush { base with mode := .paused }).nextEvent = .flush := by decide

theorem witness_FlushOnlyClearsDirty :
    (host .flush { base with dirty := true }).nextEvent = .flush ∧
    (∃ t, step (host .tick base) = .next t) := ⟨by decide, _, rfl⟩

theorem witness_ReturnPopsTheStackIntoPc :
    0 < ({ base with sp := 1 } : State).sp.val ∧ 0 < ({ base with sp := 12 } : State).sp.val ∧ base.sp.val = 0 := by
  decide

theorem witness_CallPushesTheReturnAddressAndJumps :
    base.sp.val < 12 ∧ ({ base with sp := 11 } : State).sp.val < 12 ∧
      ({ base with sp := 12 } : State).sp.val = 12 := by
  decide

theorem witness_NestedCallsAndReturnsMatch :
    (List.replicate 12 (0x200 : Addr12) ≠ [] ∧ base.sp.val + (List.replicate 12 (0x200 : Addr12)).length ≤ 12) ∧
    ([0x300] ≠ ([] : List Addr12) ∧ ({ base with sp := 11 } : State).sp.val + [(0x300 : Addr12)].length ≤ 12) := by
  decide

theorem witness_KeySkipsTestTheSnapshot :
    ((with1 base 1 15).reg 1).toNat ≤ 15 ∧ ((with1 base 1 16).reg 1).toNat > 15 := by decide

theorem witness_ShiftsWriteResultThenTheBitShiftedOut :
    3 = (if base.config.policy.shiftVy = true then ((with1 base 1 3).reg 1).toNat else ((with1 base 1 3).reg 0).toNat) ∧
    0 = (if ext.config.policy.shiftVy = true then ((with1 ext 1 3).reg 1).toNat else ((with1 ext 1 3).reg 0).toNat) := by
  decide

theorem witness_BcdStoresThreeDigits :
    Memory.wf base.config.background base.mem = true ∧ ({ base with i := 0xFFD } : State).i.toNat + 2 ≤ 0xFFF ∧
    ({ base with i := 0xFFE } : State).i.toNat + 2 > 0xFFF := by decide

theorem witness_StoreRegistersWritesTheBlock :
    Memory.wf base.config.background base.mem = true ∧
    ({ base with i := 0xFF0 } : State).i.toNat + (15 : RegIdx).toNat ≤ 0xFFF ∧
    ({ base with i := 0xFF1 } : State).i.toNat + (15 : RegIdx).toNat > 0xFFF := by decide

theorem witness_LoadRegistersReadsTheBlock :
    ({ base with i := 0xFFF } : State).i.toNat + (0 : RegIdx).toNat ≤ 0xFFF ∧
    ({ base with i := 0x1000 } : State).i.toNat + (0 : RegIdx).toNat > 0xFFF := by decide

/-- Program P4: `FX55` at 0x206 stores 12 0A at 0x208, the next instruction address. -/
theorem witness_NextFetchSeesTheStoredBytes :
    Memory.wf base.config.background base.mem = true ∧
    ({ with2 base 0 0x12 1 0x0A with i := 0x208, pc := 0x206 } : State).i.toNat + (1 : RegIdx).toNat ≤ 0xFFF ∧
    nextIs (exec (.stRegs 1) { with2 base 0 0x12 1 0x0A with i := 0x208, pc := 0x206 }) (fun t =>
      t.pc.toNat == 0x208 + (0 : RegIdx).toNat) = true ∧
    (1 : RegIdx).toNat = (0 : RegIdx).toNat + 1 ∧ (1 : RegIdx).toNat ≤ (1 : RegIdx).toNat := by decide

/-- No row at all, the last row at 0xFFF, one row beyond it, and that row clipped at the bottom edge. -/
theorem witness_DrawXorsTheClippedSprite :
    spriteInMemory { base with i := 0xFFFF } 0 0 ∧ spriteInMemory { base with i := 0xFFE } 0 2 ∧
    ¬ spriteInMemory { base with i := 0xFFE } 0 3 ∧ spriteInMemory { with1 base 1 30 with i := 0xFFE } 1 3 ∧
    (∃ py px, py < 32 ∧ px < 64 ∧ ({ base with fb := Framebuffer.blank.toggle 0 0 } : State).pixel py px = true ∧
      spriteBit { base with fb := Framebuffer.blank.toggle 0 0 } 0 1 5 py px = true) ∧
    ¬ ∃ py px, py < 32 ∧ px < 64 ∧ base.pixel py px = true ∧ spriteBit base 0 1 5 py px = true := by
  refine ⟨by unfold spriteInMemory; decide, by unfold spriteInMemory; decide, by unfold spriteInMemory; decide,
    by unfold spriteInMemory; decide, ⟨0, 0, by decide⟩, ?_⟩
  rintro ⟨py, px, _, _, h, _⟩
  simp [State.pixel, Framebuffer.get, base, State.reset] at h

/-- The state after the first draw of glyph 0 meets the premises on the second. -/
theorem witness_DrawingTwiceRestoresTheFramebuffer :
    spriteInMemory base 1 5 ∧
    nextIs (exec (.drw 0 1 5) base) (fun t =>
      t.i == base.i && t.reg 0 == base.reg 0 && t.reg 1 == base.reg 1 && t.reg 15 == 0 && t.mem == base.mem) = true ∧
    (∀ py px, py < 32 → px < 64 → spriteBit base 0 1 5 py px = true → base.pixel py px = false) ∧
    (∃ py px, py < 32 ∧ px < 64 ∧ spriteBit base 0 1 5 py px = true) := by
  refine ⟨by unfold spriteInMemory; decide, by decide, ?_, 0, 0, by decide⟩
  intro py px _ _ _
  simp [State.pixel, Framebuffer.get, base, State.reset]

/-- No key, a captured key, a key still held, a key released; with keys 3 and 8 down the lowest is 3. -/
theorem witness_KeyWaitCapturesThenDeliversOnRelease :
    (base.kwValid = false ∧ base.keys = 0) ∧
    ((0x0108 : Keys).getLsbD (3 : Nibble).toNat = true ∧
      ∀ j, j < (3 : Nibble).toNat → (0x0108 : Keys).getLsbD j = false) ∧
    ((0x8000 : Keys).getLsbD (15 : Nibble).toNat = true) ∧
    (waiting.kwValid = true ∧ ({ waiting with keys := 8 } : State).keys.getLsbD waiting.kwKey.toNat = true) ∧
    ({ waiting with keys := 0x0100 } : State).keys.getLsbD waiting.kwKey.toNat = false := by decide

end Sys2Proof.Tests
end

section
/-! # The state (spec/10_state.md)

What an instruction can do is said once, in `exec_cases`: it faults by the table of R131 and changes nothing but the mode
and the fault record, or it has an `Effect`. Every statement about `exec` is then a case analysis in which only the
instructions that write the element in question are named. -/

namespace Sys2Proof.Machine

open Sys2Proof.Claim

/-! ### What an instruction can do -/

/-- What an instruction does when it does not fault: which elements it writes, the rest of the state being `s`. -/
inductive Effect (s : State) : Instr → State → Prop
  /-- A jump to an address of the program or a skip: only `PC` changes. -/
  | jump {i : Instr} {a : Word} (hi : isControl i) (ha : a.toNat ≤ 0x10FE ∨ a = s.pc + 2 ∨ a = s.pc + 4) :
      Effect s i (s.setPc a)
  | call {nnn : Addr12} (h : s.sp.val < stackDepth) :
      Effect s (.call nnn) { s with
        stack := s.stack.set s.sp.val (s.pc + 2) h, sp := ⟨s.sp.val + 1, Nat.succ_lt_succ h⟩, pc := zextAddr nnn }
  | ret (h : 0 < s.sp.val) :
      Effect s .ret { s with
        sp := ⟨s.sp.val - 1, Nat.lt_of_le_of_lt (Nat.sub_le _ _) s.sp.isLt⟩
        pc := s.stack[s.sp.val - 1]'(by have := s.sp.isLt; omega) }
  /-- Registers change, and only those that R11 lists for the instruction. -/
  | regs {i : Instr} {v : Vector Byte numRegs}
      (hv : ∀ r, ¬ mayWriteReg i r → ({ s.advance with v := v } : State).reg r = s.reg r) :
      Effect s i { s.advance with v := v }
  | ldI {nnn : Addr12} {a : Word} : Effect s (.ldI nnn) (s.advance.setI a)
  | addI {x : RegIdx} {a : Word} : Effect s (.addI x) (s.advance.setI a)
  | ldF {x : RegIdx} {a : Word} : Effect s (.ldF x) (s.advance.setI a)
  | cls : Effect s .cls { s.advance with fb := Framebuffer.blank, dirty := true }
  | drw {x y : RegIdx} {n : Nibble} {k : Canvas} : Effect s (.drw x y n) (s.drawn k)
  | ldB {x : RegIdx} (h : s.ea 0 + 3 ≤ memSize) :
      Effect s (.ldB x) (s.advance.storeBytes (s.ea 0) (bcdDigits (s.reg x)))
  | stRegs {x : RegIdx} (h : s.ea 0 + (x.toNat + 1) ≤ memSize) :
      Effect s (.stRegs x) ((s.advance.storeBytes (s.ea 0) (s.regBlock x)).setI (s.blockEndI x))
  | ldRegs {x : RegIdx} : Effect s (.ldRegs x) { s.advance with v := s.loadedRegs x, i := s.blockEndI x }
  | ldDtVx {x : RegIdx} : Effect s (.ldDtVx x) { s.advance with dt := s.reg x }
  | ldStVx {x : RegIdx} : Effect s (.ldStVx x) { s.advance with st := s.reg x }
  /-- The key wait goes on waiting. -/
  | keyWait {x : RegIdx} : Effect s (.ldVxK x) s
  | keyCapture {x : RegIdx} {k : Nibble} : Effect s (.ldVxK x) { s with kwKey := k, kwValid := true }
  | keyRelease {x : RegIdx} {b : Byte} : Effect s (.ldVxK x) { s.advance.setReg x b with kwValid := false }

namespace Effect
variable {s : State} {i : Instr} {x : RegIdx} {b f : Byte}

theorem setReg (hx : mayWriteReg i x) : Effect s i (s.advance.setReg x b) :=
  .regs fun r hr => by
    have hne : r ≠ x := fun e => hr (e ▸ hx)
    exact (reg_setReg s.advance x r b).trans (if_neg hne)

theorem setRegFlag (hx : mayWriteReg i x) (hf : mayWriteReg i vf) :
    Effect s i (s.advance.setRegFlag x b f) :=
  .regs fun r hr => by
    have hne : r ≠ x := fun e => hr (e ▸ hx)
    have hnf : r ≠ vf := fun e => hr (e ▸ hf)
    exact (reg_setRegFlag s.advance x r b f).trans (by rw [if_neg hnf, if_neg hne, reg_advance])

/-- OR, AND and XOR write their result, and VF where the policy says so. -/
theorem logicFlag (hx : mayWriteReg i x) (hf : mayWriteReg i vf) :
    Effect s i (s.logicFlag (s.advance.setReg x b)) := by
  obtain ⟨-, e⟩ | ⟨-, e⟩ := logicFlag_cases s (s.advance.setReg x b)
  · rw [e]; exact setRegFlag hx hf
  · rw [e]; exact setReg hx

theorem skipIf {c : Bool} (hi : isControl i) : Effect s i (s.skipIf c) := by
  rw [skipIf_eq]
  exact .jump hi (.inr (by cases c <;> simp))

end Effect

theorem zextAddr_toNat (nnn : Addr12) : (zextAddr nnn).toNat = nnn.toNat :=
  BitVec.toNat_setWidth_of_le (by decide)

theorem zextAddr_le (nnn : Addr12) : (zextAddr nnn).toNat ≤ 0xFFF := by
  rw [zextAddr_toNat]; omega

/-- `BNNN` reaches at most 0xFF + 0xFFF = 0x10FE, the bound of R13. -/
theorem jumpOffset_le (b : Byte) (nnn : Addr12) : (zextByte b + zextAddr nnn).toNat ≤ 0x10FE := by
  have h := zextAddr_le nnn
  rw [BitVec.toNat_add, zextByte_eq, BitVec.toNat_ofNat]
  omega

/-- The word of a call, as the table of R131 gives it for `FINFO`. -/
theorem encodeWord_call (nnn : Addr12) : encodeWord (.call nnn) = BitVec.ofNat 16 (0x2000 + nnn.toNat) := by
  apply BitVec.eq_of_toNat_eq
  have h : (2 : Nat) <<< 12 + nnn.toNat = 2 <<< 12 ||| nnn.toNat := Nat.shiftLeft_add_eq_or_of_lt nnn.isLt 2
  rw [encodeWord, BitVec.toNat_append, BitVec.toNat_ofNat, BitVec.toNat_ofNat, ← h]
  omega

/-- An instruction that the table of R131 lists as faulting enters the fault, and does nothing else. -/
theorem exec_of_faultOf_eq_some {i : Instr} {s : State} {k : FaultKind} {info : Nat}
    (h : faultOf i s = some (k, info)) : exec i s = .next (s.raise k (BitVec.ofNat 16 info)) := by
  cases i with
  | call nnn =>
    obtain ⟨hs, rfl, rfl⟩ : s.sp.val = 12 ∧ .stackOverflow = k ∧ 0x2000 + nnn.toNat = info := by
      simpa [faultOf] using h
    rw [← encodeWord_call]
    exact congrArg Host.Outcome.next (push_full (by simp only [stackDepth]; omega))
  | ret =>
    obtain ⟨hs, rfl, rfl⟩ : s.sp.val = 0 ∧ .stackUnderflow = k ∧ 0x00EE = info := by
      simpa [faultOf, -Fin.val_eq_zero_iff] using h
    exact congrArg Host.Outcome.next (popPc_empty (by omega))
  | drw x y n =>
    obtain ⟨hs, rfl, rfl⟩ : (0 < s.spriteRows y n ∧ s.i.toNat + s.spriteRows y n - 1 > 0xFFF) ∧
        .memoryFault = k ∧ max s.i.toNat 0x1000 = info := by
      simpa [faultOf, State.spriteRows, State.spriteRow] using h
    exact congrArg Host.Outcome.next (guardRange_fault (base := s.ea 0) (by simp only [State.ea, memSize]; omega))
  | ldB x =>
    obtain ⟨hs, rfl, rfl⟩ : s.i.toNat + 2 > 0xFFF ∧ .memoryFault = k ∧ max s.i.toNat 0x1000 = info := by
      simpa [faultOf] using h
    exact congrArg Host.Outcome.next (guardRange_fault (base := s.ea 0) (by simp only [State.ea, memSize]; omega))
  | stRegs x =>
    obtain ⟨hs, rfl, rfl⟩ : s.i.toNat + x.toNat > 0xFFF ∧ .memoryFault = k ∧ max s.i.toNat 0x1000 = info := by
      simpa [faultOf] using h
    exact congrArg Host.Outcome.next (guardRange_fault (base := s.ea 0) (by simp only [State.ea, memSize]; omega))
  | ldRegs x =>
    obtain ⟨hs, rfl, rfl⟩ : s.i.toNat + x.toNat > 0xFFF ∧ .memoryFault = k ∧ max s.i.toNat 0x1000 = info := by
      simpa [faultOf] using h
    exact congrArg Host.Outcome.next (guardRange_fault (base := s.ea 0) (by simp only [State.ea, memSize]; omega))
  | skp x =>
    obtain ⟨hs, rfl, rfl⟩ : (s.reg x).toNat > 15 ∧ .keyIndexFault = k ∧ (s.reg x).toNat = info := by
      simpa [faultOf] using h
    rw [← zextByte_eq]
    exact congrArg Host.Outcome.next (if_pos hs)
  | sknp x =>
    obtain ⟨hs, rfl, rfl⟩ : (s.reg x).toNat > 15 ∧ .keyIndexFault = k ∧ (s.reg x).toNat = info := by
      simpa [faultOf] using h
    rw [← zextByte_eq]
    exact congrArg Host.Outcome.next (if_pos hs)
  | _ => simp [faultOf] at h

/-- An instruction that the table of R131 does not list as faulting has its effect. -/
theorem exec_of_faultOf_eq_none {i : Instr} {s : State} (h : faultOf i s = none) :
    ∃ t, exec i s = .next t ∧ Effect s i t := by
  cases i with
  | cls => exact ⟨_, rfl, .cls⟩
  | ret =>
    have hs : 0 < s.sp.val := Nat.pos_of_ne_zero (by simpa [faultOf] using h)
    exact ⟨_, congrArg Host.Outcome.next (popPc_ok hs), .ret hs⟩
  | jp nnn => exact ⟨_, rfl, .jump trivial (.inl (by have := zextAddr_le nnn; omega))⟩
  | call nnn =>
    have hs : s.sp.val < stackDepth :=
      Nat.lt_of_le_of_ne (Nat.le_of_lt_succ s.sp.isLt) (by simpa [faultOf] using h)
    exact ⟨_, congrArg Host.Outcome.next (push_ok hs), .call hs⟩
  | seImm x nn => exact ⟨_, rfl, .skipIf trivial⟩
  | sneImm x nn => exact ⟨_, rfl, .skipIf trivial⟩
  | seReg x y => exact ⟨_, rfl, .skipIf trivial⟩
  | sneReg x y => exact ⟨_, rfl, .skipIf trivial⟩
  | ldImm x nn => exact ⟨_, rfl, .setReg rfl⟩
  | addImm x nn => exact ⟨_, rfl, .setReg rfl⟩
  | ldReg x y => exact ⟨_, rfl, .setReg rfl⟩
  | orReg x y => exact ⟨_, rfl, .logicFlag (.inl rfl) (.inr rfl)⟩
  | andReg x y => exact ⟨_, rfl, .logicFlag (.inl rfl) (.inr rfl)⟩
  | xorReg x y => exact ⟨_, rfl, .logicFlag (.inl rfl) (.inr rfl)⟩
  | addReg x y => exact ⟨_, rfl, .setRegFlag (.inl rfl) (.inr rfl)⟩
  | sub x y => exact ⟨_, rfl, .setRegFlag (.inl rfl) (.inr rfl)⟩
  | shr x y => exact ⟨_, rfl, .setRegFlag (.inl rfl) (.inr rfl)⟩
  | subn x y => exact ⟨_, rfl, .setRegFlag (.inl rfl) (.inr rfl)⟩
  | shl x y => exact ⟨_, rfl, .setRegFlag (.inl rfl) (.inr rfl)⟩
  | ldI nnn => exact ⟨_, rfl, .ldI⟩
  | jpOff x nnn => exact ⟨_, rfl, .jump trivial (.inl (jumpOffset_le _ _))⟩
  | rnd x nn => exact ⟨_, rfl, .setReg rfl⟩
  | drw x y n =>
    have hn : ¬ (0 < s.spriteRows y n ∧ s.i.toNat + s.spriteRows y n - 1 > 0xFFF) := by
      simpa [faultOf, State.spriteRows, State.spriteRow] using h
    have hs : s.spriteRows y n = 0 ∨ s.ea 0 + s.spriteRows y n ≤ memSize := by
      simp only [State.ea, memSize]; omega
    exact ⟨_, congrArg Host.Outcome.next (guardRange_ok hs), .drw⟩
  | skp x =>
    have hs : ¬ (s.reg x).toNat > 15 := by simpa [faultOf] using h
    exact ⟨_, congrArg Host.Outcome.next (if_neg hs), .skipIf trivial⟩
  | sknp x =>
    have hs : ¬ (s.reg x).toNat > 15 := by simpa [faultOf] using h
    exact ⟨_, congrArg Host.Outcome.next (if_neg hs), .skipIf trivial⟩
  | ldVxDt x => exact ⟨_, rfl, .setReg rfl⟩
  | ldVxK x =>
    obtain ⟨-, -, e⟩ | ⟨k, -, -, e⟩ | ⟨-, -, e⟩ | ⟨-, -, e⟩ := keyWait_cases s x
    · exact ⟨_, e, .keyWait⟩
    · exact ⟨_, e, .keyCapture⟩
    · exact ⟨_, e, .keyWait⟩
    · exact ⟨_, e, .keyRelease⟩
  | ldDtVx x => exact ⟨_, rfl, .ldDtVx⟩
  | ldStVx x => exact ⟨_, rfl, .ldStVx⟩
  | addI x => exact ⟨_, rfl, .addI⟩
  | ldF x => exact ⟨_, rfl, .ldF⟩
  | ldB x =>
    have hn : ¬ s.i.toNat + 2 > 0xFFF := by simpa [faultOf] using h
    have hs : s.ea 0 + 3 ≤ memSize := by simp only [State.ea, memSize]; omega
    exact ⟨_, congrArg Host.Outcome.next (guardRange_ok (.inr hs)), .ldB hs⟩
  | stRegs x =>
    have hn : ¬ s.i.toNat + x.toNat > 0xFFF := by simpa [faultOf] using h
    have hs : s.ea 0 + (x.toNat + 1) ≤ memSize := by simp only [State.ea, memSize]; omega
    exact ⟨_, congrArg Host.Outcome.next (guardRange_ok (.inr hs)), .stRegs hs⟩
  | ldRegs x =>
    have hn : ¬ s.i.toNat + x.toNat > 0xFFF := by simpa [faultOf] using h
    have hs : s.ea 0 + (x.toNat + 1) ≤ memSize := by simp only [State.ea, memSize]; omega
    exact ⟨_, congrArg Host.Outcome.next (guardRange_ok (.inr hs)), .ldRegs⟩

/-- Everything an instruction can do: fault by the table of R131, or have its effect. -/
theorem exec_cases {i : Instr} {s t : State} (h : exec i s = .next t) :
    (∃ k info, faultOf i s = some (k, info) ∧ t = s.raise k (BitVec.ofNat 16 info)) ∨
    (faultOf i s = none ∧ Effect s i t) := by
  cases hf : faultOf i s with
  | some p =>
    obtain ⟨k, info⟩ := p
    cases (exec_of_faultOf_eq_some hf).symm.trans h
    exact .inl ⟨k, info, rfl, rfl⟩
  | none =>
    obtain ⟨t', ht, e⟩ := exec_of_faultOf_eq_none hf
    cases ht.symm.trans h
    exact .inr ⟨rfl, e⟩

end Sys2Proof.Machine
end

section
namespace Sys2Proof.Machine

open Sys2Proof.Claim

/-! ### What an instruction leaves unchanged, element by element -/

section Frame
variable {i : Instr} {s t : State}

/-- No instruction changes the configuration, the image, `AUDIO` or the model's record of the host. -/
theorem exec_frame (h : exec i s = .next t) :
    t.audio = s.audio ∧ t.config = s.config ∧ t.image = s.image ∧ t.keys = s.keys ∧ t.rnd = s.rnd ∧
    t.diag = s.diag ∧ t.loadReport = s.loadReport ∧ t.events = s.events ∧ t.draws = s.draws := by
  obtain ⟨k, info, -, rfl⟩ | ⟨-, e⟩ := exec_cases h
  · simp
  · cases e <;> simp

theorem exec_sp_stack (h : exec i s = .next t) (hcall : ∀ a, i ≠ .call a) (hret : i ≠ .ret) :
    t.sp = s.sp ∧ t.stack = s.stack := by
  obtain ⟨k, info, -, rfl⟩ | ⟨-, e⟩ := exec_cases h
  · exact ⟨rfl, rfl⟩
  · cases e with
    | call => exact absurd rfl (hcall _)
    | ret => exact absurd rfl hret
    | _ => exact ⟨rfl, rfl⟩

theorem exec_mem (h : exec i s = .next t) (hldB : ∀ x, i ≠ .ldB x) (hst : ∀ x, i ≠ .stRegs x) : t.mem = s.mem := by
  obtain ⟨k, info, -, rfl⟩ | ⟨-, e⟩ := exec_cases h
  · rfl
  · cases e with
    | ldB => exact absurd rfl (hldB _)
    | stRegs => exact absurd rfl (hst _)
    | _ => rfl

theorem exec_fb_dirty (h : exec i s = .next t) (hcls : i ≠ .cls) (hdrw : ∀ x y n, i ≠ .drw x y n) :
    t.fb = s.fb ∧ t.dirty = s.dirty := by
  obtain ⟨k, info, -, rfl⟩ | ⟨-, e⟩ := exec_cases h
  · exact ⟨rfl, rfl⟩
  · cases e with
    | cls => exact absurd rfl hcls
    | drw => exact absurd rfl (hdrw _ _ _)
    | _ => exact ⟨rfl, rfl⟩

/-- With `Q_MEM_INC = 0` a block access leaves `I` alone. -/
theorem blockEndI_eq_self {x : RegIdx} (h : s.config.policy.memInc ≠ true) : s.blockEndI x = s.i := if_neg h

theorem exec_i (h : exec i s = .next t) (hldI : ∀ a, i ≠ .ldI a) (haddI : ∀ x, i ≠ .addI x) (hldF : ∀ x, i ≠ .ldF x)
    (hinc : s.config.policy.memInc = true → (∀ x, i ≠ .stRegs x) ∧ (∀ x, i ≠ .ldRegs x)) : t.i = s.i := by
  obtain ⟨k, info, -, rfl⟩ | ⟨-, e⟩ := exec_cases h
  · rfl
  · cases e with
    | ldI => exact absurd rfl (hldI _)
    | addI => exact absurd rfl (haddI _)
    | ldF => exact absurd rfl (hldF _)
    | stRegs => exact blockEndI_eq_self fun hm => (hinc hm).1 _ rfl
    | ldRegs => exact blockEndI_eq_self fun hm => (hinc hm).2 _ rfl
    | _ => rfl

theorem exec_dt (h : exec i s = .next t) (hdt : ∀ x, i ≠ .ldDtVx x) : t.dt = s.dt := by
  obtain ⟨k, info, -, rfl⟩ | ⟨-, e⟩ := exec_cases h
  · rfl
  · cases e with
    | ldDtVx => exact absurd rfl (hdt _)
    | _ => rfl

theorem exec_st (h : exec i s = .next t) (hst : ∀ x, i ≠ .ldStVx x) : t.st = s.st := by
  obtain ⟨k, info, -, rfl⟩ | ⟨-, e⟩ := exec_cases h
  · rfl
  · cases e with
    | ldStVx => exact absurd rfl (hst _)
    | _ => rfl

theorem exec_keyCapture (h : exec i s = .next t) (hk : ∀ x, i ≠ .ldVxK x) :
    t.kwValid = s.kwValid ∧ t.kwKey = s.kwKey := by
  obtain ⟨k, info, -, rfl⟩ | ⟨-, e⟩ := exec_cases h
  · exact ⟨rfl, rfl⟩
  · cases e with
    | keyWait => exact ⟨rfl, rfl⟩
    | keyCapture => exact absurd rfl (hk _)
    | keyRelease => exact absurd rfl (hk _)
    | _ => exact ⟨rfl, rfl⟩

/-- An instruction leaves `MODE` and the fault record alone, or it faults. -/
theorem exec_mode (h : exec i s = .next t) :
    (t.mode = .halted ∧ t.fcause ≠ none) ∨
    (t.mode = s.mode ∧ t.fcause = s.fcause ∧ t.fpc = s.fpc ∧ t.finfo = s.finfo) := by
  obtain ⟨k, info, -, rfl⟩ | ⟨-, e⟩ := exec_cases h
  · exact .inl ⟨rfl, nofun⟩
  · exact .inr (by cases e <;> exact ⟨rfl, rfl, rfl, rfl⟩)

end Frame

/-! ### One event -/

theorem takeEvent_config (s : State) : s.takeEvent.config = s.config := by rw [takeEvent_eq]
theorem takeEvent_image (s : State) : s.takeEvent.image = s.image := by rw [takeEvent_eq]
theorem takeEvent_mode (s : State) : s.takeEvent.mode = s.mode := by rw [takeEvent_eq]

/-- Everything a `Step` can do: nothing outside Running; in Running a fault of the fetch, the fetched instruction, or
the no-op of R66. -/
theorem doStep_cases {s t : State} {keys : Keys} {rnd : Byte} (h : doStep keys rnd s = .next t) :
    (s.mode ≠ .running ∧ t = s.beginStep keys rnd) ∨
    (s.mode = .running ∧
      ((∃ a, t = (s.beginStep keys rnd).raise .memoryFault a) ∨
       (∃ w i, s.pc.toNat + 2 ≤ memSize ∧ s.fetch = .ok w ∧ decodeWord w = some i ∧
          exec i (s.beginStep keys rnd) = .next t) ∨
       (∃ w, s.pc.toNat + 2 ≤ memSize ∧ s.fetch = .ok w ∧ decodeWord w = none ∧
          t = (s.beginStep keys rnd).unimplemented w))) := by
  by_cases hm : s.mode = .running
  · rw [doStep, if_pos hm] at h
    refine .inr ⟨hm, ?_⟩
    obtain ⟨-, e⟩ | ⟨hpc, w, hw, ⟨i, hi, e⟩ | ⟨hi, e⟩⟩ := fetchExecute_cases (s.beginStep keys rnd)
    · cases e.symm.trans h
      exact .inl ⟨_, rfl⟩
    · exact .inr (.inl ⟨w, i, hpc, hw, hi, e.symm.trans h⟩)
    · cases e.symm.trans h
      exact .inr (.inr ⟨w, hpc, hw, hi, rfl⟩)
  · rw [doStep, if_neg hm] at h
    cases h
    exact .inl ⟨hm, rfl⟩

/-- A `Tick` writes only `AUDIO` and the timers. -/
theorem doTick_frame (s : State) : doTick s = { s with
    audio := (doTick s).audio, dt := (doTick s).dt, st := (doTick s).st } := by
  unfold doTick; split <;> rfl

theorem doPause_cases (s : State) :
    (s.mode = .running ∧ doPause s = { s with mode := .paused }) ∨ (s.mode ≠ .running ∧ doPause s = s) := by
  by_cases h : s.mode = .running
  · exact .inl ⟨h, if_pos h⟩
  · exact .inr ⟨h, if_neg h⟩

theorem doResume_cases (s : State) :
    (s.mode = .paused ∧ doResume s = { s with mode := .running }) ∨ (s.mode ≠ .paused ∧ doResume s = s) := by
  by_cases h : s.mode = .paused
  · exact .inl ⟨h, if_pos h⟩
  · exact .inr ⟨h, if_neg h⟩

/-- Everything a `Load` can do: report and change nothing, or replace the image and reset. -/
theorem doLoad_cases (image : List Byte) (s : State) :
    (imageCap < image.length ∧ doLoad image s = { s with loadReport := some .loadError }) ∨
    (image.length ≤ imageCap ∧
      doLoad image s = { doReset { s with image := image } with loadReport := some .success }) := by
  by_cases h : image.length > imageCap
  · exact .inl ⟨h, if_pos h⟩
  · exact .inr ⟨by omega, if_neg h⟩

/-! ### The invariant -/

namespace State.Inv
variable {s t : State}

theorem takeEvent (h : s.Inv) : s.takeEvent.Inv := by
  rw [takeEvent_eq]
  exact { h with }

theorem beginStep (h : s.Inv) (keys : Keys) (rnd : Byte) : (s.beginStep keys rnd).Inv := { h with }

theorem raise (h : s.Inv) (k : FaultKind) (w : Word) : (s.raise k w).Inv :=
  { h with faultIffHalted := by simp, noFaultRecord := by simp }

/-- Outside Halted no fault is recorded. -/
theorem fcause_eq_none (h : s.Inv) (hm : s.mode ≠ .halted) : s.fcause = none :=
  not_not.1 fun hf => hm (h.faultIffHalted.1 hf)

/-- A change of `MODE` between Running and Paused. -/
theorem setMode (h : s.Inv) {m : Mode} (hs : s.mode ≠ .halted) (hm : m ≠ .halted) :
    ({ s with mode := m } : State).Inv :=
  { h with faultIffHalted := by simp [h.fcause_eq_none hs, hm] }

/-- While a key is captured the fetched instruction is the key wait (R20). -/
theorem decode_of_kwValid (h : s.Inv) (hk : s.kwValid = true) {w : Word} (hw : s.fetch = .ok w) :
    ∃ x, decodeWord w = some (.ldVxK x) := by
  obtain ⟨w', x, hf, hd⟩ := h.keyWait hk
  cases hf.symm.trans hw
  exact ⟨x, hd⟩

end State.Inv

section Exec
variable {i : Instr} {s t : State} {w : Word}

/-- The address after a fetched instruction is at most 0x1000: `PC` does not wrap. -/
theorem pc_add_two_le (h : s.pc.toNat + 2 ≤ memSize) : (s.pc + 2).toNat ≤ 0x1000 := by
  simp only [memSize] at h
  bv_omega

/-- The stores of `FX33` and `FX55` stay inside the memory and keep it canonical. -/
theorem exec_memWf (h : exec i s = .next t) (hm : Memory.wf s.config.background s.mem = true) :
    Memory.wf t.config.background t.mem = true := by
  obtain ⟨k, info, -, rfl⟩ | ⟨-, e⟩ := exec_cases h
  · exact hm
  · cases e with
    | ldB hr => exact Memory.wf_writeBytes hm hr
    | stRegs hr => exact Memory.wf_writeBytes hm (by rw [regBlock_length]; exact hr)
    | _ => exact hm

/-- An instruction that was fetched leaves `PC` at most at 0x10FE (R13), when the stack holds addresses after calls. -/
theorem exec_pcBound (h : exec i s = .next t) (hpc : s.pc.toNat + 2 ≤ memSize)
    (hs : ∀ k (h : k < stackDepth), k < s.sp.val → (s.stack[k]'h).toNat ≤ 0x1000) : t.pc.toNat ≤ 0x10FE := by
  have hnext : (s.pc + 2).toNat ≤ 0x10FE := (pc_add_two_le hpc).trans (by decide)
  simp only [memSize] at hpc
  have hskip : (s.pc + 4).toNat ≤ 0x10FE := by bv_omega
  have hstay : s.pc.toNat ≤ 0x10FE := by omega
  obtain ⟨k, info, -, rfl⟩ | ⟨-, e⟩ := exec_cases h
  · exact hstay
  · cases e with
    | jump _ ha =>
      obtain ha | rfl | rfl := ha
      · exact ha
      · exact hnext
      · exact hskip
    | @call nnn _ => have := zextAddr_le nnn; simp only; omega
    | ret hsp => have := hs (s.sp.val - 1) (by have := s.sp.isLt; omega) (by omega); simp only; omega
    | keyWait => exact hstay
    | keyCapture => exact hstay
    | _ => exact hnext

/-- A call pushes the address after itself, which is at most 0x1000 (R14, R76). -/
theorem exec_stackBound (h : exec i s = .next t) (hpc : s.pc.toNat + 2 ≤ memSize)
    (hs : ∀ k (h : k < stackDepth), k < s.sp.val → (s.stack[k]'h).toNat ≤ 0x1000) :
    ∀ k (h : k < stackDepth), k < t.sp.val → (t.stack[k]'h).toNat ≤ 0x1000 := by
  obtain ⟨k, info, -, rfl⟩ | ⟨-, e⟩ := exec_cases h
  · exact hs
  · cases e with
    | call hsp =>
      intro k hk hlt
      simp only [Vector.getElem_set] at hlt ⊢
      split
      · exact pc_add_two_le hpc
      · exact hs k hk (by omega)
    | ret => exact fun k hk hlt => hs k hk (by simp only at hlt; omega)
    | _ => exact hs

/-- A captured key keeps the next fetch at the key wait: until the key is released, `FX0A` changes neither `PC` nor
memory (R20, R123). -/
theorem exec_ldVxK_fetch {x : RegIdx} (h : exec (.ldVxK x) s = .next t) (hk : t.kwValid = true) :
    t.fetch = s.fetch := by
  obtain ⟨-, -, e⟩ | ⟨k, -, -, e⟩ | ⟨-, -, e⟩ | ⟨-, -, e⟩ := keyWait_cases s x <;> cases e.symm.trans h
  · rfl
  · rfl
  · rfl
  · exact absurd hk nofun

/-- An instruction that was fetched keeps the invariant. -/
theorem exec_inv (h : s.Inv) (hm : s.mode = .running) (hpc : s.pc.toNat + 2 ≤ memSize) (hw : s.fetch = .ok w)
    (hi : decodeWord w = some i) (he : exec i s = .next t) : t.Inv := by
  have hs : s.fcause = none := h.fcause_eq_none (by simp [hm])
  obtain ⟨-, hconfig, himage, -⟩ := exec_frame he
  refine ⟨exec_memWf he h.memWf, himage ▸ h.imageFits, ?_, ?_, exec_pcBound he hpc h.stackBound,
    exec_stackBound he hpc h.stackBound, fun hk => ?_⟩
  · obtain ⟨hmode, hcause⟩ | ⟨hmode, hcause, -, -⟩ := exec_mode he
    · exact iff_of_true hcause hmode
    · rw [hmode, hcause]; exact h.faultIffHalted
  · obtain ⟨-, hcause⟩ | ⟨-, hcause, hfpc, hfinfo⟩ := exec_mode he
    · exact fun hn => absurd hn hcause
    · rw [hcause, hfpc, hfinfo]; exact h.noFaultRecord
  · have hwait : ∃ x, i = .ldVxK x := by
      by_contra hn
      rw [(exec_keyCapture he fun x e => hn ⟨x, e⟩).1] at hk
      obtain ⟨x, hd⟩ := h.decode_of_kwValid hk hw
      exact hn ⟨x, Option.some.inj (hi.symm.trans hd)⟩
    obtain ⟨x, rfl⟩ := hwait
    exact ⟨w, x, (exec_ldVxK_fetch he hk).trans hw, hi⟩

end Exec

section Events
variable {s t : State}

/-- The no-op of R66 keeps the invariant: it advances `PC` past a word that is not the key wait. -/
theorem unimplemented_inv {w : Word} (h : s.Inv) (hpc : s.pc.toNat + 2 ≤ memSize) (hw : s.fetch = .ok w)
    (hn : decodeWord w = none) : (s.unimplemented w).Inv :=
  { h with
    pcBound := (pc_add_two_le hpc).trans (by decide)
    keyWait := fun hk => by
      obtain ⟨x, hd⟩ := h.decode_of_kwValid hk hw
      exact absurd (hn.symm.trans hd) nofun }

theorem doStep_inv {keys : Keys} {rnd : Byte} (h : s.Inv) (hstep : doStep keys rnd s = .next t) : t.Inv := by
  have hb := h.beginStep keys rnd
  obtain ⟨-, rfl⟩ | ⟨hm, ⟨a, rfl⟩ | ⟨w, i, hpc, hw, hi, he⟩ | ⟨w, hpc, hw, hn, rfl⟩⟩ := doStep_cases hstep
  · exact hb
  · exact hb.raise _ _
  · exact exec_inv hb hm hpc hw hi he
  · exact unimplemented_inv hb hpc hw hn

/-- `Reset` establishes the invariant from any state whose image fits. -/
theorem doReset_inv (h : s.image.length ≤ imageCap) : (doReset s).Inv where
  memWf := Memory.wfFrom_ofBytes (Nat.zero_le _) (by simp only [entryAddr, memSize, imageCap] at *; omega)
  imageFits := h
  faultIffHalted := by simp [doReset]
  noFaultRecord := fun _ => ⟨rfl, rfl⟩
  pcBound := by simp [doReset, entryAddr]
  stackBound := fun k hk hlt => absurd hlt (Nat.not_lt_zero k)
  keyWait := nofun

theorem doLoad_inv (h : s.Inv) (image : List Byte) : (doLoad image s).Inv := by
  obtain ⟨-, e⟩ | ⟨hl, e⟩ := doLoad_cases image s
  · rw [e]; exact { h with }
  · rw [e]; exact { doReset_inv (s := { s with image := image }) hl with }

theorem perform_inv {e : HostEvent} (h : s.Inv) (hp : perform e s = .next t) : t.Inv := by
  cases e with
  | step keys rnd => exact doStep_inv h hp
  | tick =>
    cases hp
    rw [doTick_frame]; exact { h with }
  | pause =>
    cases hp
    obtain ⟨hm, e⟩ | ⟨-, e⟩ := doPause_cases s
    · rw [e]; exact h.setMode (by simp [hm]) nofun
    · rw [e]; exact h
  | resume =>
    cases hp
    obtain ⟨hm, e⟩ | ⟨-, e⟩ := doResume_cases s
    · rw [e]; exact h.setMode (by simp [hm]) nofun
    · rw [e]; exact h
  | start => cases hp; exact h
  | flush => cases hp; exact { h with }
  | reset => cases hp; exact doReset_inv h.imageFits
  | load image => cases hp; exact doLoad_inv h image

end Events

/-- Settles O11: each event keeps every clause; a `Step` by `exec_inv`, whose clauses are the lemmas above. -/
theorem stepKeepsTheMachineInvariant : Obligations.StepKeepsTheMachineInvariant := by
  intro s t h hstep
  exact perform_inv h.takeEvent hstep

/-- Settles O12: the state after reset is what `Reset` makes of itself. -/
theorem resetStateMeetsTheMachineInvariant : Obligations.ResetStateMeetsTheMachineInvariant :=
  have h : (doReset State.reset).Inv := doReset_inv (Nat.zero_le _)
  h

end Sys2Proof.Machine
end

section
namespace Sys2Proof.Machine

open Sys2Proof.Claim

/-! ### The configuration, the image and the mode -/

section Events
variable {s t : State} {e : HostEvent}

theorem doStep_config_image {keys : Keys} {rnd : Byte} (h : doStep keys rnd s = .next t) :
    t.config = s.config ∧ t.image = s.image := by
  obtain ⟨-, rfl⟩ | ⟨-, ⟨a, rfl⟩ | ⟨w, i, -, -, -, he⟩ | ⟨w, -, -, -, rfl⟩⟩ := doStep_cases h
  · exact ⟨rfl, rfl⟩
  · exact ⟨rfl, rfl⟩
  · obtain ⟨-, hconfig, himage, -⟩ := exec_frame he
    exact ⟨hconfig, himage⟩
  · exact ⟨rfl, rfl⟩

theorem perform_config_image (h : perform e s = .next t) :
    t.config = s.config ∧
    (t.image = s.image ∨ ∃ image, e = .load image ∧ image.length ≤ imageCap ∧ t.image = image) := by
  cases e with
  | step keys rnd =>
    obtain ⟨hconfig, himage⟩ := doStep_config_image h
    exact ⟨hconfig, .inl himage⟩
  | tick => cases h; rw [doTick_frame]; exact ⟨rfl, .inl rfl⟩
  | pause => cases h; obtain ⟨-, e⟩ | ⟨-, e⟩ := doPause_cases s <;> rw [e] <;> exact ⟨rfl, .inl rfl⟩
  | resume => cases h; obtain ⟨-, e⟩ | ⟨-, e⟩ := doResume_cases s <;> rw [e] <;> exact ⟨rfl, .inl rfl⟩
  | start => cases h; exact ⟨rfl, .inl rfl⟩
  | flush => cases h; exact ⟨rfl, .inl rfl⟩
  | reset => cases h; exact ⟨rfl, .inl rfl⟩
  | load image =>
    cases h
    obtain ⟨-, e⟩ | ⟨hl, e⟩ := doLoad_cases image s
    · rw [e]; exact ⟨rfl, .inl rfl⟩
    · rw [e]; exact ⟨rfl, .inr ⟨image, rfl, hl, rfl⟩⟩

/-- Settles O13. -/
theorem configurationNeverChanges : Obligations.ConfigurationNeverChanges := by
  intro s t h
  rw [← takeEvent_config s, ← takeEvent_image s]
  exact perform_config_image h

/-- A `Step` changes `MODE` only by a fault in Running. -/
theorem doStep_mode {keys : Keys} {rnd : Byte} (h : doStep keys rnd s = .next t) :
    t.mode = s.mode ∨ (s.mode = .running ∧ t.mode = .halted ∧ t.fcause ≠ none) := by
  obtain ⟨-, rfl⟩ | ⟨hm, ⟨a, rfl⟩ | ⟨w, i, -, -, -, he⟩ | ⟨w, -, -, -, rfl⟩⟩ := doStep_cases h
  · exact .inl rfl
  · exact .inr ⟨hm, rfl, nofun⟩
  · obtain hf | ⟨hmode, -⟩ := exec_mode he
    · exact .inr ⟨hm, hf⟩
    · exact .inl hmode
  · exact .inl rfl

theorem perform_mode (h : perform e s = .next t) :
    t.mode = s.mode ∨
    (e = .pause ∧ s.mode = .running ∧ t.mode = .paused) ∨
    (e = .resume ∧ s.mode = .paused ∧ t.mode = .running) ∨
    ((∃ keys rnd, e = .step keys rnd) ∧ s.mode = .running ∧ t.mode = .halted ∧ t.fcause ≠ none) ∨
    (e = .reset ∧ t.mode = .running) ∨
    (∃ image, e = .load image ∧ image.length ≤ imageCap ∧ t.mode = .running) := by
  cases e with
  | step keys rnd =>
    obtain hm | hf := doStep_mode h
    · exact .inl hm
    · exact .inr (.inr (.inr (.inl ⟨⟨keys, rnd, rfl⟩, hf⟩)))
  | tick => cases h; rw [doTick_frame]; exact .inl rfl
  | pause =>
    cases h
    obtain ⟨hm, e⟩ | ⟨-, e⟩ := doPause_cases s
    · exact .inr (.inl ⟨rfl, hm, by rw [e]⟩)
    · exact .inl (by rw [e])
  | resume =>
    cases h
    obtain ⟨hm, e⟩ | ⟨-, e⟩ := doResume_cases s
    · exact .inr (.inr (.inl ⟨rfl, hm, by rw [e]⟩))
    · exact .inl (by rw [e])
  | start => cases h; exact .inl rfl
  | flush => cases h; exact .inl rfl
  | reset => cases h; exact .inr (.inr (.inr (.inr (.inl ⟨rfl, rfl⟩))))
  | load image =>
    cases h
    obtain ⟨-, e⟩ | ⟨hl, e⟩ := doLoad_cases image s
    · exact .inl (by rw [e])
    · exact .inr (.inr (.inr (.inr (.inr ⟨image, rfl, hl, by rw [e]; rfl⟩))))

/-- Settles O14. -/
theorem modeChangesOnlyAsListed : Obligations.ModeChangesOnlyAsListed := by
  intro s t h
  rw [← takeEvent_mode s]
  exact perform_mode h

end Events

/-! ### The writers of each element -/

/-- Settles O17, one frame lemma per element. -/
theorem eachStateElementHasOnlyItsListedWriters : Obligations.EachStateElementHasOnlyItsListedWriters := fun _ _ _ h =>
  ⟨exec_sp_stack h, exec_mem h, exec_fb_dirty h, exec_i h, exec_dt h, exec_st h, exec_keyCapture h, exec_frame h⟩

/-- Registers beyond X keep their value in a block load (R110). -/
theorem reg_loadedRegs_of_lt {s : State} {x r : RegIdx} (h : x.toNat < r.toNat) :
    (s.loadedRegs x)[r.toNat]'r.isLt = s.reg r := by
  simp only [State.loadedRegs, Vector.getElem_ofFn]
  exact if_neg (by omega)

/-- Settles O18: `Effect.regs` carries the claim for the ALU; the other writers of registers are the draw, the block
load and the key wait. -/
theorem registersAreWrittenOnlyAsDestinationOrFlag : Obligations.RegistersAreWrittenOnlyAsDestinationOrFlag := by
  intro i s t r h hr
  obtain ⟨k, info, -, rfl⟩ | ⟨-, e⟩ := exec_cases h
  · rfl
  · cases e with
    | regs hv => exact hv r hr
    | @drw _ _ _ k => exact (reg_setReg s.advance vf r _).trans (if_neg hr)
    | ldRegs => exact reg_loadedRegs_of_lt (Nat.lt_of_not_le hr)
    | @keyRelease x b => exact (reg_setReg s.advance x r b).trans (if_neg hr)
    | _ => rfl

/-- Settles O19. -/
theorem programCounterStaysOnFaultElseAdvancesByTwo : Obligations.ProgramCounterStaysOnFaultElseAdvancesByTwo := by
  intro i s t h
  obtain ⟨k, info, hf, rfl⟩ | ⟨hf, e⟩ := exec_cases h
  · exact ⟨fun _ => rfl, fun hn => absurd (hf.symm.trans hn) nofun⟩
  · refine ⟨fun hn => absurd hf hn, fun _ hc => ?_⟩
    cases e with
    | jump hi => exact absurd hi hc
    | call => exact absurd trivial hc
    | ret => exact absurd trivial hc
    | keyWait => exact absurd trivial hc
    | keyCapture => exact absurd trivial hc
    | _ => rfl

/-! ### What a program can observe -/

/-- `s` with everything that a program cannot observe taken from `o` (R26). Reading any other element of it is reading
`s`, by unfolding. -/
def State.withHiddenOf (s o : State) : State :=
  { o with
    config := s.config, mem := s.mem, v := s.v, i := s.i, pc := s.pc, sp := s.sp, dt := s.dt, fb := s.fb
    kwValid := s.kwValid, kwKey := s.kwKey, keys := s.keys, rnd := s.rnd }

/-- The stack entries of `o` below the `SP` of `s` are those of `s`. -/
def sameLiveStack (s o : State) : Prop := ∀ k, k < s.sp.val → o.stack[k]? = s.stack[k]?

/-- The states a program cannot tell from `s` are `s` with hidden elements of its own, and the live stack of `s`. -/
theorem sameToProgram_iff {s t : State} : sameToProgram s t ↔ t = s.withHiddenOf t ∧ sameLiveStack s t := by
  constructor
  · rintro ⟨hconfig, hmem, hv, hi, hpc, hsp, hstack, hdt, hfb, hkv, hkk, hkeys, hrnd⟩
    refine ⟨?_, hstack⟩
    simp only [State.withHiddenOf, ← hconfig, ← hmem, ← hv, ← hi, ← hpc, ← hsp, ← hdt, ← hfb, ← hkv, ← hkk, ← hkeys,
      ← hrnd]
  · rintro ⟨e, hstack⟩
    rw [e]
    exact ⟨rfl, rfl, rfl, rfl, rfl, rfl, hstack, rfl, rfl, rfl, rfl, rfl, rfl⟩

section Observe
variable {s o : State} (hs : sameLiveStack s o)
include hs

theorem same_raise (k : FaultKind) (w : Word) : sameToProgram (s.raise k w) ((s.withHiddenOf o).raise k w) :=
  sameToProgram_iff.2 ⟨rfl, hs⟩

theorem same_skipIf (c : Bool) : sameToProgram (s.skipIf c) ((s.withHiddenOf o).skipIf c) := by
  rw [skipIf_eq, skipIf_eq]
  exact sameToProgram_iff.2 ⟨rfl, hs⟩

theorem same_keySkip (x : RegIdx) (level : Bool) :
    sameToProgram (s.keySkip x level) ((s.withHiddenOf o).keySkip x level) := by
  by_cases h : (s.reg x).toNat > 15
  · rw [State.keySkip, if_pos h, State.keySkip, if_pos (show ((s.withHiddenOf o).reg x).toNat > 15 from h)]
    exact same_raise hs _ _
  · rw [State.keySkip, if_neg h, State.keySkip, if_neg (show ¬ ((s.withHiddenOf o).reg x).toNat > 15 from h)]
    exact same_skipIf hs _

theorem same_guardRange (base len : Nat) {ok ok' : State} (h : sameToProgram ok ok') :
    sameToProgram (s.guardRange base len ok) ((s.withHiddenOf o).guardRange base len ok') := by
  unfold State.guardRange
  cases firstOutOfRange base len with
  | none => exact h
  | some a => exact same_raise hs _ _

theorem same_logicFlag (x : RegIdx) (b : Byte) :
    sameToProgram (s.logicFlag (s.advance.setReg x b))
      ((s.withHiddenOf o).logicFlag ((s.withHiddenOf o).advance.setReg x b)) := by
  unfold State.logicFlag
  rw [show (s.withHiddenOf o).config = s.config from rfl]
  split <;> exact sameToProgram_iff.2 ⟨rfl, hs⟩

/-- Pushing onto equal live stacks leaves equal live stacks. -/
theorem same_push (v info target : Word) :
    sameToProgram (s.push v info target) ((s.withHiddenOf o).push v info target) := by
  by_cases h : s.sp.val < stackDepth
  · rw [push_ok h, push_ok (s := s.withHiddenOf o) h]
    refine sameToProgram_iff.2 ⟨rfl, fun k hk => ?_⟩
    have hk' : s.sp.val ≠ k → o.stack[k]? = s.stack[k]? := fun hne => hs k (by simp only at hk; omega)
    show (o.stack.set s.sp.val v h)[k]? = (s.stack.set s.sp.val v h)[k]?
    rw [Vector.getElem?_set, Vector.getElem?_set]
    split
    · rfl
    · exact hk' ‹_›
  · rw [push_full h, push_full (s := s.withHiddenOf o) h]
    exact same_raise hs _ _

/-- The entry a return takes is live. -/
theorem same_popPc (info : Word) : sameToProgram (s.popPc info) ((s.withHiddenOf o).popPc info) := by
  by_cases h : 0 < s.sp.val
  · have hlt : s.sp.val - 1 < stackDepth := by have := s.sp.isLt; omega
    have htop : o.stack[s.sp.val - 1]'hlt = s.stack[s.sp.val - 1]'hlt := by
      simpa [hlt] using hs (s.sp.val - 1) (by omega)
    rw [popPc_ok h, popPc_ok (s := s.withHiddenOf o) h]
    exact ⟨rfl, rfl, rfl, rfl, htop, rfl, fun k hk => hs k (by simp only at hk; omega), rfl, rfl, rfl, rfl, rfl, rfl⟩
  · rw [popPc_empty h, popPc_empty (s := s.withHiddenOf o) h]
    exact same_raise hs _ _

theorem same_keyWait (x : RegIdx) :
    sameToProgram (if s.kwValid then s.keyRelease x else s.keyCapture)
      (if s.kwValid then (s.withHiddenOf o).keyRelease x else (s.withHiddenOf o).keyCapture) := by
  split
  · unfold State.keyRelease
    rw [show (s.withHiddenOf o).keyDown = s.keyDown from rfl, show (s.withHiddenOf o).kwKey = s.kwKey from rfl]
    split <;> exact sameToProgram_iff.2 ⟨rfl, hs⟩
  · unfold State.keyCapture
    rw [show (s.withHiddenOf o).keys = s.keys from rfl]
    split <;> exact sameToProgram_iff.2 ⟨rfl, hs⟩

/-- An instruction leads from states a program cannot tell apart to states it cannot tell apart. Only the instructions
that branch on the state need an argument; the others read and write only what both states share. -/
theorem exec_sameToProgram (i : Instr) :
    ∃ t t', exec i s = .next t ∧ exec i (s.withHiddenOf o) = .next t' ∧ sameToProgram t t' := by
  cases i with
  | ret => exact ⟨_, _, rfl, rfl, same_popPc hs _⟩
  | call nnn => exact ⟨_, _, rfl, rfl, same_push hs _ _ _⟩
  | seImm x nn => exact ⟨_, _, rfl, rfl, same_skipIf hs _⟩
  | sneImm x nn => exact ⟨_, _, rfl, rfl, same_skipIf hs _⟩
  | seReg x y => exact ⟨_, _, rfl, rfl, same_skipIf hs _⟩
  | sneReg x y => exact ⟨_, _, rfl, rfl, same_skipIf hs _⟩
  | skp x => exact ⟨_, _, rfl, rfl, same_keySkip hs x _⟩
  | sknp x => exact ⟨_, _, rfl, rfl, same_keySkip hs x _⟩
  | orReg x y => exact ⟨_, _, rfl, rfl, same_logicFlag hs x _⟩
  | andReg x y => exact ⟨_, _, rfl, rfl, same_logicFlag hs x _⟩
  | xorReg x y => exact ⟨_, _, rfl, rfl, same_logicFlag hs x _⟩
  | drw x y n => exact ⟨_, _, rfl, rfl, same_guardRange hs _ _ (sameToProgram_iff.2 ⟨rfl, hs⟩)⟩
  | ldB x => exact ⟨_, _, rfl, rfl, same_guardRange hs _ _ (sameToProgram_iff.2 ⟨rfl, hs⟩)⟩
  | stRegs x => exact ⟨_, _, rfl, rfl, same_guardRange hs _ _ (sameToProgram_iff.2 ⟨rfl, hs⟩)⟩
  | ldRegs x => exact ⟨_, _, rfl, rfl, same_guardRange hs _ _ (sameToProgram_iff.2 ⟨rfl, hs⟩)⟩
  | ldVxK x => exact ⟨_, _, rfl, rfl, same_keyWait hs x⟩
  | _ => exact ⟨_, _, rfl, rfl, sameToProgram_iff.2 ⟨rfl, hs⟩⟩

end Observe

/-- Settles O20. -/
theorem programCannotObserveOutputState : Obligations.ProgramCannotObserveOutputState := by
  intro i s₁ s₂ t₁ t₂ h h₁ h₂
  obtain ⟨e, hs⟩ := sameToProgram_iff.1 h
  obtain ⟨t, t', ht, ht', hsame⟩ := exec_sameToProgram hs i
  rw [← e] at ht'
  cases ht.symm.trans h₁
  cases ht'.symm.trans h₂
  exact hsame

/-! ### The state after reset -/

/-- Settles O22: memory lists nothing, so an address reads as the background; every other value is the literal one. -/
theorem resetStateHoldsTheListedValues : Obligations.ResetStateHoldsTheListedValues := by
  refine ⟨fun _ _ => rfl, fun r => ?_, fun k hk => ?_, fun y x _ _ => ?_, rfl, rfl, rfl, rfl, rfl, rfl, rfl, rfl, rfl,
    rfl, rfl, rfl, rfl, rfl⟩
  · exact Vector.getElem_replicate r.isLt
  · exact (Vector.getElem?_replicate ..).trans (if_pos hk)
  · exact Framebuffer.get_blank y x

end Sys2Proof.Machine
end

section
/-! # The memory (spec/20_memory.md)

What `FX55` leaves in memory, read back byte by byte: the next fetch reads those bytes (R41). -/

namespace Sys2Proof.Machine

section StoreBlock
variable {s : State} {x : RegIdx}

/-- `FX55` of a block that fits stores it at `I` and then advances `I` by the policy (R109). -/
theorem exec_stRegs_of_fits (h : s.i.toNat + x.toNat ≤ 0xFFF) :
    exec (.stRegs x) s = .next ((s.advance.storeBytes (s.ea 0) (s.regBlock x)).setI (s.blockEndI x)) :=
  congrArg Host.Outcome.next (guardRange_ok (.inr (by simp only [State.ea, memSize]; omega)))

/-- In memory after a store of the block at `I`, V[k] is at `I + k` (R109). -/
theorem byteAt_storeBytes_regBlock (hm : Memory.wf s.config.background s.mem = true)
    (h : s.i.toNat + x.toNat ≤ 0xFFF) {k : RegIdx} (hk : k.toNat ≤ x.toNat) :
    (s.storeBytes (s.ea 0) (s.regBlock x)).byteAt (s.i.toNat + k.toNat) = s.reg k := by
  have hfits : s.i.toNat + (s.regBlock x).length ≤ memSize := by
    rw [regBlock_length]; simp only [memSize]; omega
  have hin : s.i.toNat ≤ s.i.toNat + k.toNat ∧ s.i.toNat + k.toNat - s.i.toNat < (s.regBlock x).length := by
    rw [regBlock_length]; omega
  calc (s.storeBytes (s.ea 0) (s.regBlock x)).byteAt (s.i.toNat + k.toNat)
    _ = (s.regBlock x)[s.i.toNat + k.toNat - s.i.toNat]'hin.2 :=
      (byteAt_storeBytes hm hfits _).trans (dif_pos hin)
    _ = s.reg k := by simp only [Nat.add_sub_cancel_left, regBlock_getElem, State.reg]

/-- After `FX55`, V[k] is at the old `I + k`. -/
theorem exec_stRegs_byteAt {t : State} (hm : Memory.wf s.config.background s.mem = true)
    (h : s.i.toNat + x.toNat ≤ 0xFFF) (ht : exec (.stRegs x) s = .next t) {k : RegIdx} (hk : k.toNat ≤ x.toNat) :
    t.byteAt (s.i.toNat + k.toNat) = s.reg k := by
  cases (exec_stRegs_of_fits h).symm.trans ht
  exact byteAt_storeBytes_regBlock hm h hk

end StoreBlock

/-- Settles O47: both bytes at the new `PC` lie inside the block, so the fetch is in range and reads V[k] and V[k + 1],
the first as the high byte (R32). -/
theorem nextFetchSeesTheStoredBytes : Obligations.NextFetchSeesTheStoredBytes := by
  intro x k k' s t hm hfits ht hk' hx hpc
  have hrange : t.pc.toNat + 2 ≤ memSize := by simp only [memSize]; omega
  have hhi : t.byteAt t.pc.toNat = s.reg k := by
    rw [hpc]; exact exec_stRegs_byteAt hm hfits ht (by omega)
  have hlo : t.byteAt (t.pc.toNat + 1) = s.reg k' := by
    rw [hpc, Nat.add_assoc, ← hk']; exact exec_stRegs_byteAt hm hfits ht hx
  refine ⟨_, fetch_ok hrange, ?_⟩
  rw [wordOfBytes_toNat, hhi, hlo]

end Sys2Proof.Machine
end

section
/-! # Encoding (spec/30_encoding.md)

A word is put together from its fields in three ways: selector and address, selector, register and byte, or four
nibbles. Each instruction uses one of them, so decoding and encoding are compared once per shape. -/

namespace Sys2Proof

/-! ### Words put together from fields -/

/-- The fields of a selector before an address. -/
theorem fields_nibble_addr (p : Nibble) (a : Addr12) : fields (p ++ a) =
    ⟨p ++ a, p, a.extractLsb' 8 4, a.extractLsb' 4 4, a.extractLsb' 0 4, a.extractLsb' 0 8, a⟩ := by
  have low {start len : Nat} (h : start + len ≤ 12) :
      (p ++ a : Word).extractLsb' start len = a.extractLsb' start len := BitVec.extractLsb'_append_eq_of_add_le h
  simp only [fields, Fields.mk.injEq, true_and]
  exact ⟨BitVec.extractLsb'_append_eq_left, low (by decide), low (by decide), low (by decide), low (by decide),
    BitVec.extractLsb'_append_eq_right⟩

/-- The fields of a selector, a register and a byte. -/
theorem fields_nibble_reg_byte (p : Nibble) (x : RegIdx) (b : Byte) : fields (p ++ x ++ b) =
    ⟨p ++ x ++ b, p, x, b.extractLsb' 4 4, b.extractLsb' 0 4, b, x ++ b⟩ := by
  have low {start len : Nat} (h : start + len ≤ 8) :
      (x ++ b : Addr12).extractLsb' start len = b.extractLsb' start len := BitVec.extractLsb'_append_eq_of_add_le h
  rw [BitVec.append_assoc, BitVec.cast_eq, fields_nibble_addr]
  simp only [Fields.mk.injEq, true_and, and_true]
  exact ⟨BitVec.extractLsb'_append_eq_left, low (by decide), low (by decide), BitVec.extractLsb'_append_eq_right⟩

/-- The fields of four nibbles. -/
theorem fields_nibbles (p : Nibble) (x y : RegIdx) (n : Nibble) : fields (p ++ x ++ y ++ n) =
    ⟨p ++ x ++ y ++ n, p, x, y, n, y ++ n, x ++ (y ++ n)⟩ := by
  rw [BitVec.append_assoc, BitVec.cast_eq, fields_nibble_reg_byte]
  simp only [Fields.mk.injEq, true_and, and_true]
  exact ⟨BitVec.extractLsb'_append_eq_left, BitVec.extractLsb'_append_eq_right⟩

section Word
variable {w : Word} {p n : Nibble} {b : Byte}

theorem nibble_append_nnn (hp : (fields w).op = p) : p ++ (fields w).nnn = w := by
  subst hp
  exact BitVec.extractLsb'_append_extractLsb' (w := 4) (len := 12)

theorem nibble_append_x_nn (hp : (fields w).op = p) : p ++ (fields w).x ++ (fields w).nn = w := by
  have hnnn : (fields w).x ++ (fields w).nn = (fields w).nnn :=
    BitVec.extractLsb'_append_extractLsb'_eq_extractLsb' (Nat.zero_add 8).symm
  rw [BitVec.append_assoc, BitVec.cast_eq, hnnn, nibble_append_nnn hp]

theorem nibble_append_x_byte (hp : (fields w).op = p) (hb : (fields w).nn = b) : p ++ (fields w).x ++ b = w := by
  rw [← hb, nibble_append_x_nn hp]

theorem nibble_append_x_y_n (hp : (fields w).op = p) : p ++ (fields w).x ++ (fields w).y ++ (fields w).n = w := by
  have hnn : (fields w).y ++ (fields w).n = (fields w).nn :=
    BitVec.extractLsb'_append_extractLsb'_eq_extractLsb' (Nat.zero_add 4).symm
  rw [BitVec.append_assoc, BitVec.cast_eq, hnn, nibble_append_x_nn hp]

theorem nibble_append_x_y_nibble (hp : (fields w).op = p) (hn : (fields w).n = n) :
    p ++ (fields w).x ++ (fields w).y ++ n = w := by
  rw [← hn, nibble_append_x_y_n hp]

/-- The X of a word is the top nibble of its NNN (R73). -/
theorem fields_nnn_top (w : Word) : (fields w).nnn.extractLsb' 8 4 = (fields w).x := by
  have hx := fields_nibble_addr (fields w).op (fields w).nnn
  rw [nibble_append_nnn rfl] at hx
  exact (congrArg Fields.x hx).symm

end Word

/-! ### Decoding an encoded instruction -/

/-- Selecting on the fields of an encoding gives the instruction back, shape by shape. -/
theorem decodeWord_encodeWord {i : Instr} (h : i.wellFormed = true) : decodeWord (encodeWord i) = some i := by
  cases i with
  | cls | ret => rfl
  | jp | call | ldI => rw [decodeWord, encodeWord, fields_nibble_addr]; rfl
  | jpOff x nnn =>
    obtain rfl : x = nnn.extractLsb' 8 4 := eq_of_beq h
    rw [decodeWord, encodeWord, fields_nibble_addr]; rfl
  | seImm | sneImm | ldImm | addImm | rnd | skp | sknp | ldVxDt | ldVxK | ldDtVx | ldStVx | addI | ldF | ldB | stRegs
  | ldRegs =>
    rw [decodeWord, encodeWord, fields_nibble_reg_byte]; rfl
  | seReg | ldReg | orReg | andReg | xorReg | addReg | sub | shr | subn | shl | sneReg | drw =>
    rw [decodeWord, encodeWord, fields_nibbles]; rfl

/-- The decoder takes the two bytes of a word and leaves the rest (R32, R45). -/
theorem decode_bytesOfWord_append {w : Word} {i : Instr} (h : decodeWord w = some i) (rest : List Byte) :
    decode (bytesOfWord w ++ rest) = .ok (i, rest) := by
  simp only [bytesOfWord, List.cons_append, List.nil_append, decode, wordOfBytes_bytesOfWord, h]

/-- Settles O1: the two bytes of the encoding are its word (R32), and that word decodes to the instruction. -/
theorem encodedInstructionDecodesBack : Obligations.EncodedInstructionDecodesBack := fun _ rest h =>
  decode_bytesOfWord_append (decodeWord_encodeWord h) rest

/-! ### Encoding a decoded word -/

section Encode
variable {w : Word} {i : Instr}

theorem encodeWord_of_selectClass8 (hop : (fields w).op = 0x8) (h : selectClass8 (fields w) = some i) :
    i.wellFormed = true ∧ encodeWord i = w := by
  unfold selectClass8 at h
  split at h
  case h_10 => cases h
  all_goals
    cases h
    exact ⟨rfl, nibble_append_x_y_nibble hop (BitVec.eq_of_toNat_eq ‹_›)⟩

theorem encodeWord_of_selectClassF (hop : (fields w).op = 0xF) (h : selectClassF (fields w) = some i) :
    i.wellFormed = true ∧ encodeWord i = w := by
  unfold selectClassF at h
  split_ifs at h with hnn hnn hnn hnn hnn hnn hnn hnn hnn
  all_goals
    cases h
    exact ⟨rfl, nibble_append_x_byte hop hnn⟩

/-- The arm `h_k` of `select` is the class of opcode nibble k - 1; each puts the word together in its own shape. -/
theorem encodeWord_of_decodeWord (h : decodeWord w = some i) : i.wellFormed = true ∧ encodeWord i = w := by
  unfold decodeWord select at h
  split at h
  case h_1 =>
    split_ifs at h with hw hw <;> cases h <;> exact ⟨rfl, hw.symm⟩
  case h_2 hop | h_3 hop | h_11 hop =>
    cases h
    exact ⟨rfl, nibble_append_nnn (BitVec.eq_of_toNat_eq hop)⟩
  case h_12 hop =>
    cases h
    exact ⟨beq_iff_eq.mpr (fields_nnn_top w).symm, nibble_append_nnn (BitVec.eq_of_toNat_eq hop)⟩
  case h_4 hop | h_5 hop | h_7 hop | h_8 hop | h_13 hop =>
    cases h
    exact ⟨rfl, nibble_append_x_nn (BitVec.eq_of_toNat_eq hop)⟩
  case h_6 hop | h_10 hop =>
    split_ifs at h with hn
    cases h
    exact ⟨rfl, nibble_append_x_y_nibble (BitVec.eq_of_toNat_eq hop) hn⟩
  case h_14 hop =>
    cases h
    exact ⟨rfl, nibble_append_x_y_n (BitVec.eq_of_toNat_eq hop)⟩
  case h_15 hop =>
    split_ifs at h with hnn hnn <;> cases h <;>
      exact ⟨rfl, nibble_append_x_byte (BitVec.eq_of_toNat_eq hop) hnn⟩
  case h_9 hop => exact encodeWord_of_selectClass8 (BitVec.eq_of_toNat_eq hop) h
  case h_16 =>
    have hop : (fields w).op = 0xF := by simp only [imp_false] at *; bv_omega
    exact encodeWord_of_selectClassF hop h

end Encode

/-- Settles O3: the arm that selected the instruction fixes the bits the fields leave out. -/
theorem decodedInstructionEncodesBackToItsWord : Obligations.DecodedInstructionEncodesBackToItsWord := fun _ _ h =>
  encodeWord_of_decodeWord h

/-! ### The rows of the opcode map -/

/-- The encoding of an instruction matches its row, by the shape of that row. -/
theorem row_matches_encodeWord (i : Instr) : i.row.Matches (encodeWord i) := by
  cases i with
  | cls | ret => rfl
  | jp | call | ldI | jpOff => exact Laws.RowMatch.nibble ..
  | seImm | sneImm | ldImm | addImm | rnd => exact Laws.RowMatch.nibbleXnn ..
  | drw => exact Laws.RowMatch.nibbleXyn ..
  | seReg | ldReg | orReg | andReg | xorReg | addReg | sub | shr | subn | shl | sneReg =>
    exact Laws.RowMatch.nibbleNibble ..
  | skp | sknp | ldVxDt | ldVxK | ldDtVx | ldStVx | addI | ldF | ldB | stRegs | ldRegs =>
    exact Laws.RowMatch.nibbleByte ..

section Mask
variable {w m p : Word}

/-- Where a mask covers a field, a word that matches the pattern has the pattern's bits there. -/
theorem extractLsb'_eq_of_and_eq {start len : Nat} (h : w &&& m = p)
    (hm : m.extractLsb' start len = BitVec.allOnes len) : w.extractLsb' start len = p.extractLsb' start len := by
  rw [← h, BitVec.extractLsb'_and, hm, BitVec.and_allOnes]

theorem fields_op_of_and_eq (h : w &&& m = p) (hm : (fields m).op = BitVec.allOnes 4) :
    (fields w).op = (fields p).op :=
  extractLsb'_eq_of_and_eq h hm

theorem fields_n_of_and_eq (h : w &&& m = p) (hm : (fields m).n = BitVec.allOnes 4) : (fields w).n = (fields p).n :=
  extractLsb'_eq_of_and_eq h hm

theorem fields_nn_of_and_eq (h : w &&& m = p) (hm : (fields m).nn = BitVec.allOnes 8) :
    (fields w).nn = (fields p).nn :=
  extractLsb'_eq_of_and_eq h hm

/-- A word that matches the row of an instruction decodes to an instruction of that row: the fields the mask covers
decide the selection. -/
theorem exists_decodeWord_of_row_matches {j : Instr} (h : j.row.Matches w) :
    ∃ i, decodeWord w = some i ∧ i.row = j.row := by
  unfold decodeWord
  generalize hd : fields w = d
  cases j with simp only [OpcodeRow.Matches, Instr.row] at h
  | cls | ret =>
    obtain rfl := BitVec.and_allOnes.symm.trans h
    subst hd
    exact ⟨_, rfl, rfl⟩
  | jp | call | seImm | sneImm | ldImm | addImm | ldI | jpOff | rnd | drw =>
    have hop := fields_op_of_and_eq h rfl
    cases d
    cases hd ▸ hop
    exact ⟨_, rfl, rfl⟩
  | seReg | ldReg | orReg | andReg | xorReg | addReg | sub | shr | subn | shl | sneReg =>
    have hop := fields_op_of_and_eq h rfl
    have hn := fields_n_of_and_eq h rfl
    cases d
    cases hd ▸ hop; cases hd ▸ hn
    exact ⟨_, rfl, rfl⟩
  | skp | sknp | ldVxDt | ldVxK | ldDtVx | ldStVx | addI | ldF | ldB | stRegs | ldRegs =>
    have hop := fields_op_of_and_eq h rfl
    have hnn := fields_nn_of_and_eq h rfl
    cases d
    cases hd ▸ hop; cases hd ▸ hnn
    exact ⟨_, rfl, rfl⟩

end Mask

/-- R48 for the row of one instruction. -/
theorem row_matches_iff (j : Instr) (w : Word) :
    j.row.Matches w ↔ ∃ i, decodeWord w = some i ∧ i.row = j.row := by
  refine ⟨exists_decodeWord_of_row_matches, ?_⟩
  rintro ⟨i, hi, hrow⟩
  rw [← hrow, ← (encodeWord_of_decodeWord hi).2]
  exact row_matches_encodeWord i

/-- Settles O2: every row of the table is the row of an instruction. -/
theorem wordIsTheInstructionWhoseRowItMatches : Obligations.WordIsTheInstructionWhoseRowItMatches := by
  intro w r hr
  obtain ⟨j, -, rfl⟩ := List.mem_map.mp hr
  exact row_matches_iff j w

/-- Settles O4: both rows are the row of the one instruction the word decodes to. -/
theorem opcodePatternsArePairwiseDisjoint : Obligations.OpcodePatternsArePairwiseDisjoint := by
  intro r₁ hr₁ r₂ hr₂ w h₁ h₂
  obtain ⟨i₁, hi₁, hrow₁⟩ := (wordIsTheInstructionWhoseRowItMatches w r₁ hr₁).mp h₁
  obtain ⟨i₂, hi₂, hrow₂⟩ := (wordIsTheInstructionWhoseRowItMatches w r₂ hr₂).mp h₂
  have hi : i₁ = i₂ := Option.some.inj (hi₁.symm.trans hi₂)
  rw [← hrow₁, ← hrow₂, hi]

/-! ### The words that are no instruction -/

theorem ite_some_eq_none_iff {c : Prop} [Decidable c] {α : Type} {a : α} {o : Option α} :
    (if c then some a else o) = none ↔ ¬c ∧ o = none := by
  split_ifs with hc <;> simp [hc]

theorem selectClass8_eq_none_iff (d : Fields) :
    selectClass8 d = none ↔ d.n ∈ ([0x8, 0x9, 0xA, 0xB, 0xC, 0xD, 0xF] : List Nibble) := by
  unfold selectClass8
  split
  case h_10 =>
    simp only [imp_false, List.mem_cons, List.not_mem_nil, or_false, true_iff] at *
    bv_omega
  all_goals simp [← BitVec.toNat_inj, *]

theorem selectClassF_eq_none_iff (d : Fields) : selectClassF d = none ↔
    d.nn ∉ ([0x07, 0x0A, 0x15, 0x18, 0x1E, 0x29, 0x33, 0x55, 0x65] : List Byte) := by
  simp [selectClassF, ite_some_eq_none_iff]

/-- Settles O5: in each class, the words its arm of `select` leaves out are those of the class's line of the table. -/
theorem unimplementedWordsAreTheListedSpaces : Obligations.UnimplementedWordsAreTheListedSpaces := by
  intro w
  have hw : (fields w).word = w := rfl
  unfold decodeWord select
  split
  case h_16 =>
    have hop : (fields w).op = 0xF := by simp only [imp_false] at *; bv_omega
    simp [hop, selectClassF_eq_none_iff]
  all_goals
    rename_i hop
    simp [← BitVec.toNat_inj (x := (fields w).op), hop, selectClass8_eq_none_iff, ite_some_eq_none_iff, hw]

/-! ### Sample words -/

/-- Settles O7, by running the decoder on each word. -/
theorem sampleWordsDecodeAsListed : Obligations.SampleWordsDecodeAsListed := by
  unfold Obligations.SampleWordsDecodeAsListed
  decide

end Sys2Proof
end

section
/-! # Decode and dispatch (spec/40_decode_dispatch.md)

A `Step` in Running is `fetchExecute` of the state in which it began; what that does is said once for each of its three
ends: a fetch that faults, a word that is an instruction, a word that is none. -/

namespace Sys2Proof

/-! ### The fields of a word -/

/-- A field of `len` bits from bit `start` on, as a number. -/
theorem extractLsb'_toNat_eq_div_mod (w : Word) (start len : Nat) :
    (w.extractLsb' start len).toNat = w.toNat / 2 ^ start % 2 ^ len := by
  rw [BitVec.extractLsb'_toNat, Nat.shiftRight_eq_div_pow]

/-- Settles O6: each field is a quotient and a remainder of the word; `OP` needs no remainder in a 16-bit word. -/
theorem decodeExposesTheSevenFields : Obligations.DecodeExposesTheSevenFields := by
  refine ⟨fun w => ⟨rfl, ?_⟩, rfl⟩
  have hw : w.toNat < 65536 := w.isLt
  simp only [fields, extractLsb'_toNat_eq_div_mod]
  omega

/-! ### Words that match no row -/

/-- The row of an instruction does not depend on its fields, so the 34 cases are closed facts. -/
theorem row_mem_opcodeTable (i : Instr) : i.row ∈ opcodeTable := by
  cases i <;> exact of_decide_eq_true rfl

/-- A word that matches no row of the opcode map is no instruction (R50). -/
theorem decodeWord_eq_none_of_no_row {w : Word} (h : ∀ r ∈ opcodeTable, w &&& r.mask ≠ r.pattern) :
    decodeWord w = none := by
  refine Option.eq_none_iff_forall_ne_some.mpr fun i hi => ?_
  exact h i.row (row_mem_opcodeTable i) ((row_matches_iff i w).mpr ⟨i, hi, rfl⟩)

end Sys2Proof

namespace Sys2Proof.Machine

open Sys2Proof.Claim

section Step
variable {s : State} {keys : Keys} {rnd : Byte} {w : Word}

/-! ### Fetch, decode, execute -/

/-- The fetch reads the big-endian word at `PC` (R32, R62). -/
theorem fetch_eq_ok (hpc : s.pc.toNat < 0xFFF)
    (hw : w.toNat = (s.byteAt s.pc.toNat).toNat * 256 + (s.byteAt (s.pc.toNat + 1)).toNat) : s.fetch = .ok w := by
  rw [fetch_ok (by simp only [memSize]; omega), BitVec.eq_of_toNat_eq (hw.trans (wordOfBytes_toNat _ _).symm)]

/-- A fetch that reaches beyond the memory faults with the lowest address `a` of its two above 0xFFF (R36, R132). -/
theorem fetchExecute_of_out_of_range {a : Nat} (h : 0xFFF ≤ s.pc.toNat) (ha : max s.pc.toNat memSize = a) :
    s.fetchExecute = .next (faulted s .memoryFault a) := by
  rw [State.fetchExecute, fetch_fault (by simp only [memSize]; omega), ha]
  rfl

theorem fetchExecute_of_instr {i : Instr} (hw : s.fetch = .ok w) (hi : decodeWord w = some i) :
    s.fetchExecute = exec i s := by
  simp only [State.fetchExecute, hw, hi]

theorem fetchExecute_of_no_instr (hw : s.fetch = .ok w) (hn : decodeWord w = none) :
    s.fetchExecute = .next (s.unimplemented w) := by
  simp only [State.fetchExecute, hw, hn]

/-! ### The event `Step` -/

theorem takeEvent_beginStep (s : State) (keys : Keys) (rnd : Byte) :
    s.takeEvent.beginStep keys rnd = stepBegun s keys rnd := by
  rw [takeEvent_eq s]; rfl

/-- A `Step` outside Running samples its inputs and does nothing else. -/
theorem step_of_not_running (he : s.nextEvent = .step keys rnd) (hm : s.mode ≠ .running) :
    step s = .next (stepBegun s keys rnd) := by
  rw [step_eq, he, perform, doStep, takeEvent_mode, if_neg hm, takeEvent_beginStep]

/-- A `Step` in Running runs the instruction at `PC` from the state in which it began. -/
theorem step_of_running (he : s.nextEvent = .step keys rnd) (hm : s.mode = .running) :
    step s = (stepBegun s keys rnd).fetchExecute := by
  rw [step_eq, he, perform, doStep, takeEvent_mode, if_pos hm, takeEvent_beginStep]

end Step

/-- Settles O8: the modes by `step_of_not_running` and `step_of_running`, the fetch and what follows it in Running by
the three ends of `fetchExecute`. -/
theorem stepFetchesDecodesAndExecutes : Obligations.StepFetchesDecodesAndExecutes := by
  intro s keys rnd he
  refine ⟨step_of_not_running he, fun hm hpc => ?_, fun hm hpc => ?_, fun hm hpc w hw => ?_⟩
  · exact (step_of_running he hm).trans (fetchExecute_of_out_of_range (Nat.le_of_lt hpc) (Nat.max_eq_left hpc))
  · exact (step_of_running he hm).trans (fetchExecute_of_out_of_range hpc.ge (congrArg (max · memSize) hpc))
  · have hfetch : (stepBegun s keys rnd).fetch = .ok w := fetch_eq_ok hpc hw
    rw [step_of_running he hm]
    exact ⟨fun _ hi => fetchExecute_of_instr hfetch hi, fun hn => fetchExecute_of_no_instr hfetch hn⟩

/-- Settles O9: a word that matches no row decodes to nothing, and then O8 gives the next state. -/
theorem unimplementedWordOnlyAdvancesPcAndReports : Obligations.UnimplementedWordOnlyAdvancesPcAndReports := by
  refine ⟨fun s keys rnd w he hm hpc hw hrow => ?_, by decide⟩
  obtain ⟨-, -, -, hrun⟩ := stepFetchesDecodesAndExecutes s keys rnd he
  exact (hrun hm hpc w hw).2 (decodeWord_eq_none_of_no_row hrow)

/-! ### No event is left without an answer -/

/-- Every instruction answers a next state: the one its fault enters (R132), or the one its effect makes. -/
theorem exists_exec_eq_next (i : Instr) (s : State) : ∃ t, exec i s = .next t := by
  cases hf : faultOf i s with
  | some fault => exact ⟨_, exec_of_faultOf_eq_some hf⟩
  | none =>
    obtain ⟨t, ht, -⟩ := exec_of_faultOf_eq_none hf
    exact ⟨t, ht⟩

theorem exists_fetchExecute_eq_next (s : State) : ∃ t, s.fetchExecute = .next t := by
  obtain ⟨-, e⟩ | ⟨-, w, -, ⟨i, -, e⟩ | ⟨-, e⟩⟩ := fetchExecute_cases s
  · exact ⟨_, e⟩
  · rw [e]; exact exists_exec_eq_next i s
  · exact ⟨_, e⟩

theorem exists_perform_eq_next (e : HostEvent) (s : State) : ∃ t, perform e s = .next t := by
  cases e with
  | step keys rnd =>
    rw [perform, doStep]
    split
    · exact exists_fetchExecute_eq_next _
    · exact ⟨_, rfl⟩
  | tick | pause | resume | start | flush | reset | load image => exact ⟨_, rfl⟩

/-- Settles O10: of the events only `Step` in Running can answer otherwise, and neither its fetch nor `exec` does. -/
theorem everyStepAnswersANextState : Obligations.EveryStepAnswersANextState := fun s =>
  exists_perform_eq_next s.nextEvent s.takeEvent

end Sys2Proof.Machine
end

section
/-! # Control transfer (spec/41_control_flow.md)

The rows of the opcode map as `EncodedAs` states them, by one lemma over the row of the instruction; then jumps, calls
and returns, and the skips. That nested calls and returns match is an induction whose step is one call around a body
that keeps the depth of the stack and its live entries. -/

namespace Sys2Proof.Machine

open Sys2Proof.Claim

/-! ### The words of an instruction -/

/-- The words of a row are those of `mk` when `mk` puts each of them together again from its fields: decoding and
encoding are inverse, and an encoding matches its row. -/
theorem encodedAs_of_encodeWord {m p : Word} {mk : Fields → Instr}
    (hrow : ∀ d w, (mk d).row.Matches w ↔ w &&& m = p)
    (h : ∀ w, w &&& m = p → (mk (fields w)).wellFormed = true ∧ encodeWord (mk (fields w)) = w) :
    EncodedAs m p mk := by
  refine fun w => ⟨fun hw => ?_, fun hd => ?_⟩
  · obtain ⟨hwf, henc⟩ := h w hw
    exact (congrArg decodeWord henc).symm.trans (decodeWord_encodeWord hwf)
  · exact (hrow (fields w) w).mp ((row_matches_iff _ w).mpr ⟨_, hd, rfl⟩)

/-! ### Jumps -/

/-- Settles O29: NNN is zero-extended to 16 bits (R49). -/
theorem jumpSetsPcToItsAddress : Obligations.JumpSetsPcToItsAddress :=
  ⟨encodedAs_of_encodeWord (fun _ _ => Iff.rfl) fun _ h => ⟨rfl, nibble_append_nnn (fields_op_of_and_eq h rfl)⟩,
    fun nnn s => congrArg (fun a => Host.Outcome.next (s.setPc a)) (zextAddr_eq nnn)⟩

/-- A byte and an address add up to less than 2^16, so `BNNN` needs no mask (R73). -/
theorem zextByte_add_zextAddr_toNat (b : Byte) (nnn : Addr12) :
    (zextByte b + zextAddr nnn).toNat = b.toNat + nnn.toNat := by
  rw [zextByte_eq, zextAddr_eq, BitVec.toNat_add, BitVec.toNat_ofNat, BitVec.toNat_ofNat]
  omega

/-- Settles O32: the register is selected by the policy, and the sum is exact. X is the top nibble of NNN. -/
theorem jumpWithOffsetAddsThePolicysRegister : Obligations.JumpWithOffsetAddsThePolicysRegister := by
  refine ⟨encodedAs_of_encodeWord (fun _ _ => Iff.rfl) fun w h =>
      ⟨beq_iff_eq.mpr (fields_nnn_top w).symm, nibble_append_nnn (fields_op_of_and_eq h rfl)⟩,
    fun x nnn s => ⟨_, rfl, ?_, rfl⟩⟩
  rw [setPc_pc, zextByte_add_zextAddr_toNat, State.jumpOffset, apply_ite BitVec.toNat]

/-! ### Calls and returns -/

section Stack
variable {s : State} {a : Word} {nnn : Addr12}

/-- A call below the capacity pushes the address after it and jumps (R70, R76). -/
theorem exec_call_of_lt (h : s.sp.val < stackDepth) : exec (.call nnn) s = .next { s with
    stack := s.stack.set s.sp.val (s.pc + 2) h, sp := ⟨s.sp.val + 1, Nat.succ_lt_succ h⟩, pc := zextAddr nnn } :=
  congrArg Host.Outcome.next (push_ok h)

/-- A return pops the newest entry into `PC` (R71, R72). -/
theorem exec_ret_of_top (h : 0 < s.sp.val) (htop : s.stack[s.sp.val - 1]? = some a) : exec .ret s = .next { s with
    sp := ⟨s.sp.val - 1, Nat.lt_of_le_of_lt (Nat.sub_le _ _) s.sp.isLt⟩, pc := a } := by
  obtain ⟨_, rfl⟩ := Vector.getElem?_eq_some_iff.mp htop
  exact congrArg Host.Outcome.next (popPc_ok h)

end Stack

/-- Settles O28: with an entry on the stack `exec_ret_of_top`, with none the fault of R131. -/
theorem returnPopsTheStackIntoPc : Obligations.ReturnPopsTheStackIntoPc := by
  refine ⟨encodedAs_of_encodeWord (fun _ _ => Iff.rfl) fun _ h => ⟨rfl, h.symm.trans BitVec.and_allOnes⟩,
    fun s => ⟨fun hsp => ?_, fun hsp => exec_of_faultOf_eq_some (if_pos hsp)⟩⟩
  have hlt : s.sp.val - 1 < stackDepth := by have := s.sp.isLt; omega
  have htop : s.stack[s.sp.val - 1]? = some s.stack[s.sp.val - 1] := Vector.getElem?_eq_getElem hlt
  exact ⟨_, exec_ret_of_top hsp htop, rfl, htop, rfl⟩

/-- Settles O30: below the capacity `exec_call_of_lt`, at it the fault of R131. -/
theorem callPushesTheReturnAddressAndJumps : Obligations.CallPushesTheReturnAddressAndJumps := by
  refine ⟨encodedAs_of_encodeWord (fun _ _ => Iff.rfl) fun _ h =>
      ⟨rfl, nibble_append_nnn (fields_op_of_and_eq h rfl)⟩,
    fun nnn s => ⟨fun hsp => ⟨_, exec_call_of_lt hsp, rfl, fun k _ => ?_, ?_⟩,
      fun hsp => exec_of_faultOf_eq_some (if_pos hsp)⟩⟩
  · simp only [Vector.getElem?_set, eq_comm (a := s.sp.val)]
  · rw [zextAddr_eq]

/-! ### Nested calls -/

section Nested
variable {s t : State} {nnn : Addr12} {is js body : List Instr}

theorem execAll_append (h : execAll is s = .next t) : execAll (is ++ js) s = execAll js t := by
  induction is generalizing s with
  | nil => cases h; rfl
  | cons i is ih =>
    obtain ⟨u, hu⟩ := exists_exec_eq_next i s
    simp only [execAll, List.cons_append, hu] at h ⊢
    exact ih h

/-- The instructions end at the address `a` with the stack as deep as before and its live entries unchanged; nothing
but `PC` and dead stack entries has changed. -/
def KeepsLiveStack (is : List Instr) (s : State) (a : Word) : Prop :=
  ∃ stack, execAll is s = .next { s with pc := a, stack := stack } ∧
    ∀ k, k < s.sp.val → stack[k]? = s.stack[k]?

/-- A call, a body that keeps the live stack, and a return: the return finds the address the call has pushed, so
control is back at the instruction after the call. -/
theorem keepsLiveStack_call_body_ret (h : s.sp.val < stackDepth)
    (hbody : ∀ t, exec (.call nnn) s = .next t → ∃ a, KeepsLiveStack body t a) :
    KeepsLiveStack (.call nnn :: (body ++ [.ret])) s (s.pc + 2) := by
  obtain ⟨a, stack, hrun, hlive⟩ := hbody _ (exec_call_of_lt h)
  have htop : stack[s.sp.val]? = some (s.pc + 2) :=
    (hlive s.sp.val (Nat.lt_succ_self _)).trans (Vector.getElem?_set_self h)
  refine ⟨stack, ?_, fun k hk => ?_⟩
  · rw [execAll, exec_call_of_lt h]
    refine (execAll_append hrun).trans ?_
    rw [execAll, exec_ret_of_top (Nat.succ_pos _) htop]
    rfl
  · exact (hlive k (Nat.lt_succ_of_lt hk)).trans (Vector.getElem?_set_ne h (Nat.ne_of_gt hk))

/-- N calls and then N returns, for nesting up to the capacity. -/
theorem exists_keepsLiveStack_calls_returns (targets : List Addr12) (s : State)
    (h : s.sp.val + targets.length ≤ stackDepth) :
    ∃ a, KeepsLiveStack (targets.map .call ++ List.replicate targets.length .ret) s a ∧
      (targets ≠ [] → a = s.pc + 2) := by
  induction targets generalizing s with
  | nil => exact ⟨s.pc, ⟨s.stack, rfl, fun _ _ => rfl⟩, fun hne => absurd rfl hne⟩
  | cons nnn targets ih =>
    rw [List.length_cons] at h ⊢
    rw [List.replicate_succ', List.map_cons, List.cons_append, ← List.append_assoc]
    have hsp : s.sp.val < stackDepth := by omega
    refine ⟨s.pc + 2, keepsLiveStack_call_body_ret hsp fun t ht => ?_, fun _ => rfl⟩
    have hdepth : t.sp.val = s.sp.val + 1 := by cases (exec_call_of_lt hsp).symm.trans ht; rfl
    obtain ⟨a, ha, -⟩ := ih t (by omega)
    exact ⟨a, ha⟩

end Nested

/-- Settles O31: the outermost call decides the address; the inner ones keep the live stack, by induction. -/
theorem nestedCallsAndReturnsMatch : Obligations.NestedCallsAndReturnsMatch := by
  intro targets s hne h
  obtain ⟨a, ⟨stack, hrun, hlive⟩, ha⟩ := exists_keepsLiveStack_calls_returns targets s h
  cases ha hne
  exact ⟨_, hrun, hlive, rfl⟩

/-! ### Skips -/

section Skip
variable {s : State}

/-- A skip on a test that decides `p` goes over the next instruction exactly when `p` holds (R74). -/
theorem skipIf_of_iff {c : Bool} {p : Prop} [Decidable p] (h : c = true ↔ p) :
    s.skipIf c = { s with pc := if p then s.pc + 4 else s.pc + 2 } := by
  simp only [skipIf_eq, h]

/-- A key skip on an existing key tests its level in the snapshot (R81, R82). -/
theorem keySkip_of_le {x : RegIdx} (h : (s.reg x).toNat ≤ 15) (level : Bool) : s.keySkip x level =
    { s with pc := if s.keys.getLsbD (s.reg x).toNat = level then s.pc + 4 else s.pc + 2 } :=
  (if_neg (Nat.not_lt.mpr h)).trans (skipIf_of_iff beq_iff_eq)

end Skip

/-- Settles O33: each skip is the common skip of R74 on its own test. -/
theorem skipsCompareAndMoveOnlyPc : Obligations.SkipsCompareAndMoveOnlyPc := by
  refine ⟨?seImm, ?sneImm, ?seReg, ?sneReg, fun x nn s => ⟨?_, ?_⟩, fun x y s => ⟨?_, ?_⟩⟩
  case seImm | sneImm =>
    exact encodedAs_of_encodeWord (fun _ _ => Iff.rfl) fun _ h =>
      ⟨rfl, nibble_append_x_nn (fields_op_of_and_eq h rfl)⟩
  case seReg | sneReg =>
    exact encodedAs_of_encodeWord (fun _ _ => Iff.rfl) fun _ h =>
      ⟨rfl, nibble_append_x_y_nibble (fields_op_of_and_eq h rfl) (fields_n_of_and_eq h rfl)⟩
  · exact congrArg Host.Outcome.next (skipIf_of_iff beq_iff_eq)
  · exact congrArg Host.Outcome.next (skipIf_of_iff bne_iff_ne)
  · exact congrArg Host.Outcome.next (skipIf_of_iff beq_iff_eq)
  · exact congrArg Host.Outcome.next (skipIf_of_iff bne_iff_ne)

/-- Settles O34: a key number up to 15 by `keySkip_of_le`, above it the fault of R131. -/
theorem keySkipsTestTheSnapshot : Obligations.KeySkipsTestTheSnapshot := by
  refine ⟨?skp, ?sknp, fun x s => ⟨fun hx => ⟨?_, ?_⟩, fun hx => ⟨?_, ?_⟩⟩⟩
  case skp | sknp =>
    exact encodedAs_of_encodeWord (fun _ _ => Iff.rfl) fun _ h =>
      ⟨rfl, nibble_append_x_byte (fields_op_of_and_eq h rfl) (fields_nn_of_and_eq h rfl)⟩
  · exact congrArg Host.Outcome.next (keySkip_of_le hx true)
  · exact congrArg Host.Outcome.next (keySkip_of_le hx false)
  · exact exec_of_faultOf_eq_some (if_pos hx)
  · exact exec_of_faultOf_eq_some (if_pos hx)

end Sys2Proof.Machine
end

section
/-! # Loads and ALU (spec/42_alu.md)

Every instruction of the family is one write to V[X]: alone, before its flag in VF (R64, R96), or before the policy's
zero in VF (R88 to R90). Each form is described once, with the registers read through an interpretation `g` of a byte;
what remains per instruction is the number its result and its flag stand for. -/

namespace Sys2Proof.Machine

open Sys2Proof.Claim

/-! ### The words of the family -/

/-- The words of a row with free X and NN. -/
theorem encodedAs_x_nn {p : Word} {mk : RegIdx → Byte → Instr}
    (hrow : ∀ x nn w, (mk x nn).row.Matches w ↔ w &&& 0xF000 = p) (hwf : ∀ x nn, (mk x nn).wellFormed = true)
    (henc : ∀ x nn, encodeWord (mk x nn) = (fields p).op ++ x ++ nn) :
    EncodedAs 0xF000 p (fun d => mk d.x d.nn) :=
  encodedAs_of_encodeWord (fun d => hrow d.x d.nn) fun _ h =>
    ⟨hwf _ _, (henc _ _).trans (nibble_append_x_nn (fields_op_of_and_eq h rfl))⟩

/-- The words of a row with free X and Y. -/
theorem encodedAs_x_y {p : Word} {mk : RegIdx → RegIdx → Instr}
    (hrow : ∀ x y w, (mk x y).row.Matches w ↔ w &&& 0xF00F = p) (hwf : ∀ x y, (mk x y).wellFormed = true)
    (henc : ∀ x y, encodeWord (mk x y) = (fields p).op ++ x ++ y ++ (fields p).n) :
    EncodedAs 0xF00F p (fun d => mk d.x d.y) :=
  encodedAs_of_encodeWord (fun d => hrow d.x d.y) fun _ h =>
    ⟨hwf _ _, (henc _ _).trans (nibble_append_x_y_nibble (fields_op_of_and_eq h rfl) (fields_n_of_and_eq h rfl))⟩

/-! ### The three forms of a write -/

section Write
variable {α : Type} {s : State} {i : Instr} {x : RegIdx} {b f : Byte} {result flag : α}

/-- A result without a flag. -/
theorem exec_result (h : exec i s = .next (s.advance.setReg x b)) (g : Byte → α) (hb : g b = result) :
    ∃ t, exec i s = .next t ∧ (∀ r, g (t.reg r) = if r = x then result else g (s.reg r)) ∧
      t = { s with pc := s.pc + 2, v := t.v } := by
  refine ⟨_, h, fun r => ?_, rfl⟩
  rw [reg_setReg, reg_advance, apply_ite g, hb]

/-- A result and then its flag, which remains when X = 15. -/
theorem exec_result_flag (h : exec i s = .next (s.advance.setRegFlag x b f)) (g : Byte → α)
    (hb : g b = result) (hf : g f = flag) :
    ∃ t, exec i s = .next t ∧
      (∀ r, g (t.reg r) = if r = 15 then flag else if r = x then result else g (s.reg r)) ∧
      t = { s with pc := s.pc + 2, v := t.v } := by
  refine ⟨_, h, fun r => ?_, rfl⟩
  rw [reg_setRegFlag, reg_advance, apply_ite g, apply_ite g, hb, hf, vf]

/-- A result and then the zero the policy asks for: with `Q_LOGIC_VF = 1` a result and a flag, else a result alone. -/
theorem exec_result_logicFlag (h : exec i s = .next (s.logicFlag (s.advance.setReg x b))) :
    ∃ t, exec i s = .next t ∧
      (∀ r, t.reg r = if r = 15 ∧ s.config.policy.logicVf = true then 0 else if r = x then b else s.reg r) ∧
      t = { s with pc := s.pc + 2, v := t.v } := by
  obtain ⟨hp, e⟩ | ⟨hp, e⟩ := logicFlag_cases s (s.advance.setReg x b)
  · simp only [hp, and_true]
    exact exec_result_flag (h.trans (congrArg _ e)) id rfl rfl
  · simp only [hp, Bool.false_eq_true, and_false, if_false]
    exact exec_result (h.trans (congrArg _ e)) id rfl

end Write

/-! ### Results and flags as numbers -/

section Number
variable (a b : Byte)

theorem carryFlag_toNat : (carryFlag a b).toNat = if a.toNat + b.toNat > 255 then 1 else 0 :=
  flagByte_decide _

/-- The difference modulo 256, as an integer (R92, R94). -/
theorem sub_toNat_eq_emod : ((a - b).toNat : Int) = ((a.toNat : Int) - b.toNat) % 256 := by
  rw [BitVec.toNat_sub]
  omega

/-- Equal operands do not borrow (R97). -/
theorem noBorrowFlag_toNat_cast :
    ((noBorrowFlag a b).toNat : Int) = if a.toNat ≥ b.toNat then 1 else 0 := by
  rw [noBorrowFlag, flagByte_decide, apply_ite Nat.cast, Nat.cast_one, Nat.cast_zero]

theorem shiftRight_one_toNat : (a >>> 1).toNat = a.toNat / 2 :=
  (BitVec.toNat_ushiftRight a 1).trans (Nat.shiftRight_eq_div_pow a.toNat 1)

theorem shiftLeft_one_toNat : (a <<< 1).toNat = a.toNat * 2 % 256 := by
  rw [BitVec.toNat_shiftLeft, Nat.shiftLeft_eq, pow_one]

/-- A flag that is bit k of a byte. -/
theorem flagByte_getLsbD_toNat (k : Nat) : (flagByte (a.getLsbD k)).toNat = a.toNat / 2 ^ k % 2 := by
  rw [BitVec.getLsbD, Nat.testBit_eq_decide_div_mod_eq, flagByte_decide]
  split <;> omega

theorem shiftedOutRight_toNat : (shiftedOutRight a).toNat = a.toNat % 2 := by
  rw [shiftedOutRight, flagByte_getLsbD_toNat, pow_zero, Nat.div_one]

theorem shiftedOutLeft_toNat : (shiftedOutLeft a).toNat = a.toNat / 128 := by
  rw [shiftedOutLeft, flagByte_getLsbD_toNat]
  omega

end Number

/-! ### Loads, immediates and the random byte -/

/-- Settles O35: a result without a flag, NN or V[Y] as it stands. -/
theorem loadsWriteOnlyTheDestination : Obligations.LoadsWriteOnlyTheDestination :=
  ⟨encodedAs_x_nn (fun _ _ _ => Iff.rfl) (fun _ _ => rfl) fun _ _ => rfl,
    encodedAs_x_y (fun _ _ _ => Iff.rfl) (fun _ _ => rfl) fun _ _ => rfl,
    fun _ _ _ => exec_result rfl id rfl, fun _ _ _ => exec_result rfl id rfl⟩

/-- Settles O36: a result without a flag, and the sum of bytes is the sum modulo 256. -/
theorem addImmediateWrapsAndSetsNoFlag : Obligations.AddImmediateWrapsAndSetsNoFlag :=
  ⟨encodedAs_x_nn (fun _ _ _ => Iff.rfl) (fun _ _ => rfl) fun _ _ => rfl,
    fun x nn s => exec_result rfl BitVec.toNat (BitVec.toNat_add (s.reg x) nn)⟩

/-- Settles O41: a result without a flag, the byte this `Step` sampled masked with NN. -/
theorem randomIsTheSampledByteMasked : Obligations.RandomIsTheSampledByteMasked :=
  ⟨encodedAs_x_nn (fun _ _ _ => Iff.rfl) (fun _ _ => rfl) fun _ _ => rfl, fun _ _ _ => exec_result rfl id rfl⟩

/-! ### Logic, sums, differences and shifts -/

/-- Settles O37: the three operations differ in the result alone. -/
theorem logicOperationsClearVfByPolicy : Obligations.LogicOperationsClearVfByPolicy := by
  refine ⟨?orReg, ?andReg, ?xorReg, fun x y s =>
    ⟨exec_result_logicFlag rfl, exec_result_logicFlag rfl, exec_result_logicFlag rfl⟩⟩
  case orReg | andReg | xorReg => exact encodedAs_x_y (fun _ _ _ => Iff.rfl) (fun _ _ => rfl) fun _ _ => rfl

/-- Settles O38: the sum of bytes is the sum modulo 256, and its flag the carry. -/
theorem addRegisterWritesSumThenCarry : Obligations.AddRegisterWritesSumThenCarry :=
  ⟨encodedAs_x_y (fun _ _ _ => Iff.rfl) (fun _ _ => rfl) fun _ _ => rfl,
    fun _ _ _ => exec_result_flag rfl BitVec.toNat (BitVec.toNat_add _ _) (carryFlag_toNat _ _)⟩

/-- Settles O39: one argument for both, with the operands exchanged. -/
theorem subtractionsWriteDifferenceThenNoBorrow : Obligations.SubtractionsWriteDifferenceThenNoBorrow := by
  refine ⟨?sub, ?subn, fun x y s => ⟨?_, ?_⟩⟩
  case sub | subn => exact encodedAs_x_y (fun _ _ _ => Iff.rfl) (fun _ _ => rfl) fun _ _ => rfl
  · exact exec_result_flag rfl (fun b => (b.toNat : Int)) (sub_toNat_eq_emod _ _) (noBorrowFlag_toNat_cast _ _)
  · exact exec_result_flag rfl (fun b => (b.toNat : Int)) (sub_toNat_eq_emod _ _) (noBorrowFlag_toNat_cast _ _)

/-- Settles O40: the number the statement shifts is the source the policy selects. -/
theorem shiftsWriteResultThenTheBitShiftedOut : Obligations.ShiftsWriteResultThenTheBitShiftedOut := by
  refine ⟨?shr, ?shl, fun x y s src hsrc => ?_⟩
  case shr | shl => exact encodedAs_x_y (fun _ _ _ => Iff.rfl) (fun _ _ => rfl) fun _ _ => rfl
  obtain rfl : src = (s.shiftSource x y).toNat := hsrc.trans (apply_ite BitVec.toNat _ _ _).symm
  exact ⟨exec_result_flag rfl BitVec.toNat (shiftRight_one_toNat _) (shiftedOutRight_toNat _),
    exec_result_flag rfl BitVec.toNat (shiftLeft_one_toNat _) (shiftedOutLeft_toNat _)⟩

end Sys2Proof.Machine
end

section
/-! # Index register and memory (spec/43_index_memory.md)

Three instructions write `I` alone. The other three access the block at `I`: the range check of R44 decides between the
access and the fault. After a store the block is read back byte by byte, and every other byte is as before. -/

namespace Sys2Proof.Machine

open Sys2Proof.Claim

/-! ### The index register -/

/-- The words of a row with free X. -/
theorem encodedAs_x {p : Word} {mk : RegIdx → Instr}
    (hrow : ∀ x w, (mk x).row.Matches w ↔ w &&& 0xF0FF = p) (hwf : ∀ x, (mk x).wellFormed = true)
    (henc : ∀ x, encodeWord (mk x) = (fields p).op ++ x ++ (fields p).nn) :
    EncodedAs 0xF0FF p (fun d => mk d.x) :=
  encodedAs_of_encodeWord (fun d => hrow d.x) fun _ h =>
    ⟨hwf _, (henc _).trans (nibble_append_x_byte (fields_op_of_and_eq h rfl) (fields_nn_of_and_eq h rfl))⟩

/-- An instruction that writes `I` and nothing else (R105 to R107). -/
theorem exec_index {i : Instr} {s : State} {a : Word} {n : Nat} (h : exec i s = .next (s.advance.setI a))
    (ha : a.toNat = n) : ∃ t, exec i s = .next t ∧ t.i.toNat = n ∧ t = { s with pc := s.pc + 2, i := t.i } :=
  ⟨_, h, ha, rfl⟩

/-- Settles O42: NNN is zero-extended to 16 bits (R49). -/
theorem loadIndexWritesTheAddress : Obligations.LoadIndexWritesTheAddress :=
  ⟨encodedAs_of_encodeWord (fun _ _ => Iff.rfl) fun _ h => ⟨rfl, nibble_append_nnn (fields_op_of_and_eq h rfl)⟩,
    fun nnn _ => exec_index rfl (zextAddr_toNat nnn)⟩

/-- `I + V[X]` wraps at 16 bits (R106). -/
theorem add_zextByte_toNat (a : Word) (b : Byte) : (a + zextByte b).toNat = (a.toNat + b.toNat) % 65536 := by
  rw [BitVec.toNat_add, zextByte, BitVec.toNat_setWidth_of_le (by decide)]

/-- The address of a glyph is at most 255 * 5 = 1275, so `FX29` needs no mask (R107). -/
theorem glyphAddr_toNat (b : Byte) : (BitVec.ofNat 16 (b.toNat * 5)).toNat = b.toNat * 5 :=
  (BitVec.toNat_ofNat _ _).trans (Nat.mod_eq_of_lt (by omega))

/-- Settles O43: each writes `I` alone; the sum is modulo 2^16, the product is exact. -/
theorem indexArithmeticWritesOnlyI : Obligations.IndexArithmeticWritesOnlyI :=
  ⟨encodedAs_x (fun _ _ => Iff.rfl) (fun _ => rfl) fun _ => rfl,
    encodedAs_x (fun _ _ => Iff.rfl) (fun _ => rfl) fun _ => rfl,
    fun x s => exec_index rfl (add_zextByte_toNat s.i (s.reg x)),
    fun x s => exec_index rfl (glyphAddr_toNat (s.reg x))⟩

/-! ### Block stores -/

section Store
variable {s : State} {a : Nat} {bs : List Byte}

/-- Byte k of a stored block is at `a + k`. -/
theorem byteAt_storeBytes_add (hm : Memory.wf s.config.background s.mem = true) (ha : a + bs.length ≤ memSize)
    {k : Nat} (hk : k < bs.length) : (s.storeBytes a bs).byteAt (a + k) = bs[k] := by
  rw [byteAt_storeBytes hm ha, dif_pos (by omega)]
  simp only [Nat.add_sub_cancel_left]

/-- Bytes before and after a stored block are as before. -/
theorem byteAt_storeBytes_of_outside (hm : Memory.wf s.config.background s.mem = true)
    (ha : a + bs.length ≤ memSize) {b : Nat} (hb : b < a ∨ a + bs.length ≤ b) :
    (s.storeBytes a bs).byteAt b = s.byteAt b := by
  rw [byteAt_storeBytes hm ha, dif_neg (by omega)]

end Store

section Bcd
variable {s : State} {x : RegIdx}

/-- The digits as numbers, each below 256 (R108). -/
theorem bcdDigits_map_toNat (b : Byte) :
    (bcdDigits b).map BitVec.toNat = [b.toNat / 100, b.toNat / 10 % 10, b.toNat % 10] := by
  simp only [bcdDigits, List.map_cons, List.map_nil, BitVec.toNat_ofNat, List.cons.injEq, and_true]
  omega

/-- `FX33` of a block that fits stores the three digits at `I` (R108). -/
theorem exec_ldB_of_fits (h : s.i.toNat + 2 ≤ 0xFFF) :
    exec (.ldB x) s = .next (s.advance.storeBytes s.i.toNat (bcdDigits (s.reg x))) :=
  congrArg Host.Outcome.next (guardRange_ok (.inr (by simp only [State.ea, memSize]; omega)))

/-- After `FX33`, digit k is at `I + k`. -/
theorem exec_ldB_byteAt_toNat {t : State} (hm : Memory.wf s.config.background s.mem = true)
    (h : s.i.toNat + 2 ≤ 0xFFF) (ht : exec (.ldB x) s = .next t) {k : Nat} (hk : k < 3) :
    (t.byteAt (s.i.toNat + k)).toNat =
      [(s.reg x).toNat / 100, (s.reg x).toNat / 10 % 10, (s.reg x).toNat % 10][k] := by
  cases (exec_ldB_of_fits h).symm.trans ht
  have hbyte : (s.advance.storeBytes s.i.toNat (bcdDigits (s.reg x))).byteAt (s.i.toNat + k) =
      (bcdDigits (s.reg x))[k] := byteAt_storeBytes_add (s := s.advance) hm (Nat.succ_le_succ h) hk
  simp only [hbyte, ← bcdDigits_map_toNat]
  exact (List.getElem_map BitVec.toNat).symm

end Bcd

/-- Settles O44: the digits by `exec_ldB_byteAt_toNat`, and the block has three bytes. -/
theorem bcdStoresThreeDigits : Obligations.BcdStoresThreeDigits := by
  refine ⟨encodedAs_x (fun _ _ => Iff.rfl) (fun _ => rfl) fun _ => rfl, fun x s hm => ⟨fun hfits => ?_, fun hout => ?_⟩⟩
  · have hexec := exec_ldB_of_fits (x := x) hfits
    have digit {k : Nat} (hk : k < 3) := exec_ldB_byteAt_toNat hm hfits hexec hk
    exact ⟨_, hexec, digit (k := 0) (by decide), digit (k := 1) (by decide), digit (k := 2) (by decide),
      fun _ ha => byteAt_storeBytes_of_outside (s := s.advance) hm (Nat.succ_le_succ hfits) ha, rfl⟩
  · exact exec_of_faultOf_eq_some (if_pos hout)

/-- Settles O45: inside the block by `exec_stRegs_byteAt`, and the block has X + 1 bytes. -/
theorem storeRegistersWritesTheBlock : Obligations.StoreRegistersWritesTheBlock := by
  refine ⟨encodedAs_x (fun _ _ => Iff.rfl) (fun _ => rfl) fun _ => rfl, fun x s hm => ⟨fun hfits => ?_, fun hout => ?_⟩⟩
  · have hexec := exec_stRegs_of_fits hfits
    refine ⟨_, hexec, fun k hk => exec_stRegs_byteAt hm hfits hexec hk, fun a ha => ?outside,
      blockEndI_toNat (Nat.lt_succ_of_le hfits), rfl⟩
    case outside =>
      have hlen := regBlock_length s x
      exact byteAt_storeBytes_of_outside (s := s.advance) hm (a := s.i.toNat) (by simp only [memSize]; omega) (by omega)
  · exact exec_of_faultOf_eq_some (if_pos hout)

/-! ### Block loads -/

/-- `FX65` of a block that fits loads it from `I` on and then advances `I` by the policy (R110). -/
theorem exec_ldRegs_of_fits {s : State} {x : RegIdx} (h : s.i.toNat + x.toNat ≤ 0xFFF) :
    exec (.ldRegs x) s = .next { s.advance with v := s.loadedRegs x, i := s.blockEndI x } :=
  congrArg Host.Outcome.next (guardRange_ok (.inr (by simp only [State.ea, memSize]; omega)))

/-- The register file after a block load: V[k] from `I + k` up to X, the rest as before (R110). -/
theorem loadedRegs_getElem (s : State) (x k : RegIdx) : (s.loadedRegs x)[k.toNat]'k.isLt =
    if k.toNat ≤ x.toNat then s.byteAt (s.i.toNat + k.toNat) else s.reg k :=
  Vector.getElem_ofFn k.isLt

/-- Settles O46: every register of the loaded file by `loadedRegs_getElem`. -/
theorem loadRegistersReadsTheBlock : Obligations.LoadRegistersReadsTheBlock := by
  refine ⟨encodedAs_x (fun _ _ => Iff.rfl) (fun _ => rfl) fun _ => rfl, fun x s => ⟨fun hfits => ?_, fun hout => ?_⟩⟩
  · exact ⟨_, exec_ldRegs_of_fits hfits, loadedRegs_getElem s x, blockEndI_toNat (Nat.lt_succ_of_le hfits), rfl⟩
  · exact exec_of_faultOf_eq_some (if_pos hout)

end Sys2Proof.Machine
end

section
/-! # Display (spec/44_display.md)

The drawing loop is known cell by cell (`drawSprite_fb`, `drawSprite_hit`); here its loop variables are turned into the
cells of the clipped sprite. That a second draw undoes the first is then a fact about the cells: each is XORed twice with
the same bit. -/

namespace Sys2Proof.Machine

open Sys2Proof.Claim

/-! ### The clear -/

/-- Settles O48. -/
theorem clearZeroesTheFramebuffer : Obligations.ClearZeroesTheFramebuffer :=
  ⟨encodedAs_of_encodeWord (fun _ _ => Iff.rfl) fun _ h => ⟨rfl, h.symm.trans BitVec.and_allOnes⟩,
    fun _ => ⟨_, rfl, fun y x _ _ => Framebuffer.get_blank y x, rfl⟩⟩

/-! ### The flush -/

theorem takeEvent_fb (s : State) : s.takeEvent.fb = s.fb := by rw [takeEvent_eq]

/-- Of the events only `Step`, `Reset` and `Load` write the framebuffer. -/
theorem perform_fb {s t : State} {e : HostEvent} (h : perform e s = .next t) :
    t.fb = s.fb ∨ (∃ keys rnd, e = .step keys rnd) ∨ e = .reset ∨ ∃ image, e = .load image := by
  cases e with
  | step keys rnd => exact .inr (.inl ⟨keys, rnd, rfl⟩)
  | tick => cases h; rw [doTick_frame]; exact .inl rfl
  | pause => cases h; obtain ⟨-, e⟩ | ⟨-, e⟩ := doPause_cases s <;> rw [e] <;> exact .inl rfl
  | resume => cases h; obtain ⟨-, e⟩ | ⟨-, e⟩ := doResume_cases s <;> rw [e] <;> exact .inl rfl
  | start | flush => cases h; exact .inl rfl
  | reset => exact .inr (.inr (.inl rfl))
  | load image => exact .inr (.inr (.inr ⟨image, rfl⟩))

/-- Settles O27: what a flush does is read off its definition, who writes the framebuffer is `perform_fb`. -/
theorem flushOnlyClearsDirty : Obligations.FlushOnlyClearsDirty := by
  refine ⟨fun s he => ?_, fun s t h => ?_⟩
  · rw [step_eq, he, takeEvent_eq]
    rfl
  · rw [← takeEvent_fb s]
    exact perform_fb h

/-! ### The clipped sprite -/

/-- What the drawing loop of `DXYN` ends with: the framebuffer and the collision (R116). -/
def State.spriteCanvas (s : State) (x y : RegIdx) (n : Nibble) : Canvas :=
  s.drawSprite (s.spriteCol x) (s.spriteRow y) (s.spriteRows y n)

section Sprite
variable {s : State} {x y : RegIdx} {n : Nibble}

/-- The sprite bit on a cell is a bit of a row that is drawn, at that row and column of the sprite (R117). -/
theorem spriteBit_eq_true_iff {py px : Nat} : spriteBit s x y n py px = true ↔
    ∃ r c, r < s.spriteRows y n ∧ c < 8 ∧ (s.byteAt (s.ea r)).getLsbD (7 - c) = true ∧
      py = s.spriteRow y + r ∧ px = s.spriteCol x + c := by
  have hdef : spriteBit s x y n py px = true ↔
      (s.spriteRow y ≤ py ∧ py < s.spriteRow y + s.spriteRows y n ∧ s.spriteCol x ≤ px ∧ px < s.spriteCol x + 8) ∧
        (s.byteAt (s.ea (py - s.spriteRow y))).getLsbD (7 - (px - s.spriteCol x)) = true :=
    Bool.and_eq_true_iff.trans (and_congr_left' decide_eq_true_iff)
  rw [hdef]
  constructor
  · rintro ⟨hcell, hbit⟩
    exact ⟨_, _, by omega, by omega, hbit, by omega, by omega⟩
  · rintro ⟨r, c, hr, hc, hbit, rfl, rfl⟩
    exact ⟨by omega, by simpa only [Nat.add_sub_cancel_left] using hbit⟩

/-- A cell that is set lies in the grid. -/
theorem lt_of_pixel_eq_true {py px : Nat} (h : s.pixel py px = true) : py < fbHeight ∧ px < fbWidth := by
  by_contra hout
  exact absurd ((dif_neg hout).symm.trans h) Bool.false_ne_true

/-- The drawing loop XORs every cell with the sprite bit on it. -/
theorem get_spriteCanvas_fb {py px : Nat} (hy : py < fbHeight) (hx : px < fbWidth) :
    Framebuffer.get (s.spriteCanvas x y n).fb py px = (s.pixel py px ^^ spriteBit s x y n py px) := by
  rw [State.spriteCanvas, drawSprite_fb]
  simp only [hy, hx, true_and]
  rfl

/-- The drawing loop records a collision exactly when a 1 bit of the sprite falls on a set cell. -/
theorem spriteCanvas_hit_iff : (s.spriteCanvas x y n).hit = true ↔
    ∃ py px, py < 32 ∧ px < 64 ∧ s.pixel py px = true ∧ spriteBit s x y n py px = true := by
  simp only [State.spriteCanvas, drawSprite_hit, spriteBit_eq_true_iff]
  constructor
  · rintro ⟨r, c, hr, hc, hbit, hset⟩
    obtain ⟨hy, hx⟩ := lt_of_pixel_eq_true hset
    exact ⟨_, _, hy, hx, hset, r, c, hr, hc, hbit, rfl, rfl⟩
  · rintro ⟨-, -, -, -, hset, r, c, hr, hc, hbit, rfl, rfl⟩
    exact ⟨r, c, hr, hc, hbit, hset⟩

/-- The sprite bits depend on `I`, the coordinates and the bytes of the drawn rows alone. -/
theorem spriteBit_congr {t : State} (hi : t.i = s.i) (hx : t.reg x = s.reg x) (hy : t.reg y = s.reg y)
    (hbytes : ∀ r, r < s.spriteRows y n → t.byteAt (s.i.toNat + r) = s.byteAt (s.i.toNat + r)) (py px : Nat) :
    spriteBit t x y n py px = spriteBit s x y n py px := by
  have hrows : t.spriteRows y n = s.spriteRows y n := by simp only [State.spriteRows, State.spriteRow, hy]
  have hbyte : ∀ r, r < s.spriteRows y n → t.byteAt (t.ea r) = s.byteAt (s.ea r) := by
    simpa only [State.ea, hi] using hbytes
  rw [Bool.eq_iff_iff, spriteBit_eq_true_iff, spriteBit_eq_true_iff]
  simp only [State.spriteRow, State.spriteCol, hx, hy, hrows]
  refine exists₂_congr fun r c => and_congr_right fun hr => ?_
  rw [hbyte r hr]

/-! ### The draw -/

/-- `DXYN` with its rows in memory draws the sprite (R116). -/
theorem exec_drw_of_inMemory (h : spriteInMemory s y n) :
    exec (.drw x y n) s = .next (s.drawn (s.spriteCanvas x y n)) :=
  congrArg Host.Outcome.next (guardRange_ok h)

/-- `DXYN` with a row above 0xFFF faults by the table of R131. -/
theorem faultOf_drw (h : ¬ spriteInMemory s y n) :
    faultOf (.drw x y n) s = some (.memoryFault, max s.i.toNat 0x1000) := by
  simp only [spriteInMemory] at h
  exact if_pos (by omega)

/-- A draw writes the collision to VF as 0 or 1, and no other register. -/
theorem reg_drawn (s : State) (k : Canvas) (r : RegIdx) :
    (s.drawn k).reg r = if r = 15 then flagByte k.hit else s.reg r :=
  reg_setReg s.advance vf r (flagByte k.hit)

end Sprite

/-- Settles O49: the cells by `get_spriteCanvas_fb`, the flag by `spriteCanvas_hit_iff`, the fault by the table of
R131. -/
theorem drawXorsTheClippedSprite : Obligations.DrawXorsTheClippedSprite := by
  refine ⟨encodedAs_of_encodeWord (fun _ _ => Iff.rfl) fun _ h =>
      ⟨rfl, nibble_append_x_y_n (fields_op_of_and_eq h rfl)⟩,
    fun x y n s => ⟨fun hin => ?_, fun hout => exec_of_faultOf_eq_some (faultOf_drw hout)⟩⟩
  refine ⟨_, exec_drw_of_inMemory hin, fun _ _ => get_spriteCanvas_fb, fun r hr => ?_, fun hmet => ?_, fun hfree => ?_,
    rfl⟩
  · exact (reg_drawn s _ r).trans (if_neg hr)
  · rw [reg_drawn, if_pos rfl, spriteCanvas_hit_iff.mpr hmet]
    rfl
  · rw [reg_drawn, if_pos rfl, Bool.eq_false_iff.mpr (mt spriteCanvas_hit_iff.mp hfree)]
    rfl

/-- Settles O50 by O49 for both draws. The second has the sprite bits of the first, so each cell is XORed twice with the
same bit; and on a region that was clear it meets exactly the cells the first draw has set. -/
theorem drawingTwiceRestoresTheFramebuffer : Obligations.DrawingTwiceRestoresTheFramebuffer := by
  intro x y n s hin
  obtain ⟨-, hdraw⟩ := drawXorsTheClippedSprite
  obtain ⟨t, ht, htpixel, -, -, htfree, -⟩ := (hdraw x y n s).1 hin
  refine ⟨t, ht, fun t' hfb hi hx hy hbytes => ?_⟩
  have hin' : spriteInMemory t' y n := by unfold spriteInMemory; rwa [hi, hy]
  have hpixel : ∀ py px, py < 32 → px < 64 → t'.pixel py px = (s.pixel py px ^^ spriteBit s x y n py px) := by
    simpa only [State.pixel, hfb] using htpixel
  obtain ⟨u, hu, hupixel, -, humet, hufree, -⟩ := (hdraw x y n t').1 hin'
  simp only [spriteBit_congr hi hx hy hbytes] at hupixel humet hufree
  refine ⟨u, hu, Framebuffer.ext_get fun py px hpy hpx => ?_, fun hdark => ⟨htfree ?_, fun hone => humet ?_,
    fun hnone => hufree ?_⟩⟩
  · calc u.pixel py px
      _ = ((s.pixel py px ^^ spriteBit s x y n py px) ^^ spriteBit s x y n py px) := by
        rw [hupixel py px hpy hpx, hpixel py px hpy hpx]
      _ = s.pixel py px := by rw [Bool.xor_assoc, Bool.xor_self, Bool.xor_false]
  · rintro ⟨py, px, hpy, hpx, hset, hbit⟩
    exact absurd ((hdark py px hpy hpx hbit).symm.trans hset) Bool.false_ne_true
  · obtain ⟨py, px, hpy, hpx, hbit⟩ := hone
    exact ⟨py, px, hpy, hpx, by rw [hpixel py px hpy hpx, hdark py px hpy hpx hbit, hbit]; rfl, hbit⟩
  · rintro ⟨py, px, hpy, hpx, -, hbit⟩
    exact hnone ⟨py, px, hpy, hpx, hbit⟩

end Sys2Proof.Machine
end

section
/-! # Timers and keys (spec/45_timers_keys.md)

One `Tick` is described once, by O24; a run of them is an induction over their number that cites it. The key wait is
described by its two halves, the capture and the release. -/

namespace Sys2Proof.Machine

open Sys2Proof.Claim

/-! ### The tick -/

section Tick
variable {s : State} {e : HostEvent} {es : List HostEvent}

theorem step_of_tick (he : s.nextEvent = .tick) : step s = .next (doTick (eventTaken s)) := by
  rw [step_eq, he, takeEvent_eq]
  rfl

theorem nextEvent_of_events_eq_cons (h : s.events = e :: es) : s.nextEvent = e := by
  rw [State.nextEvent, h]

/-- Taking a listed event leaves the free draws alone. -/
theorem eventTaken_of_events_eq_cons (h : s.events = e :: es) : eventTaken s = { s with events := es } := by
  rw [eventTaken, State.takeEvent, h]

end Tick

/-- Settles O24: the timers by `countDown_toNat`. -/
theorem tickSamplesAudioThenCountsDown : Obligations.TickSamplesAudioThenCountsDown := by
  refine fun s he => ⟨fun hm => ?running, fun hm => ?notRunning⟩
  case running =>
    exact ⟨_, (step_of_tick he).trans (congrArg Host.Outcome.next (if_pos hm)), decide_eq_true_iff,
      countDown_toNat s.dt, countDown_toNat s.st, rfl⟩
  case notRunning => exact (step_of_tick he).trans (congrArg Host.Outcome.next (if_neg hm))

/-- Settles O25 by induction on the number of Ticks: the first is O24 and leaves a state in Running whose next events
are the others. -/
theorem timersAfterManyTicks : Obligations.TimersAfterManyTicks := by
  intro k rest
  induction k with
  | zero =>
    rintro s - rfl
    exact ⟨s, rfl, rfl, rfl, rfl⟩
  | succ k ih =>
    intro s hm hev
    have hcons : s.events = .tick :: (List.replicate k .tick ++ rest) := hev
    obtain ⟨t, hstep, -, hdt, hst, ht⟩ :=
      (tickSamplesAudioThenCountsDown s (nextEvent_of_events_eq_cons hcons)).1 hm
    rw [eventTaken_of_events_eq_cons hcons] at ht
    obtain ⟨u, hrun, hudt, hust, hu⟩ := ih t (by rw [ht]; exact hm) (by rw [ht])
    refine ⟨u, (run_succ core k s t hstep).trans hrun, by omega, by omega, ?frame⟩
    case frame =>
      rw [ht] at hu
      exact hu

/-! ### The timer registers -/

/-- Settles O51: a result without a flag in V[X], or one write to a timer. -/
theorem timerInstructionsMoveOneByte : Obligations.TimerInstructionsMoveOneByte := by
  refine ⟨?ldVxDt, ?ldDtVx, ?ldStVx, fun _ _ => ⟨exec_result rfl id rfl, rfl, rfl⟩⟩
  case ldVxDt | ldDtVx | ldStVx => exact encodedAs_x (fun _ _ => Iff.rfl) (fun _ => rfl) fun _ => rfl

/-! ### The key wait -/

section KeyWait
variable {s : State} {x : RegIdx}

theorem exec_ldVxK_of_not_kwValid (h : s.kwValid = false) : exec (.ldVxK x) s = .next s.keyCapture :=
  congrArg Host.Outcome.next (if_neg (Bool.eq_false_iff.mp h))

theorem exec_ldVxK_of_kwValid (h : s.kwValid = true) : exec (.ldVxK x) s = .next (s.keyRelease x) :=
  congrArg Host.Outcome.next (if_pos h)

theorem keyCapture_of_lowestKey_eq_none (h : lowestKey s.keys = none) : s.keyCapture = s := by
  rw [State.keyCapture, h]

theorem keyCapture_of_lowestKey_eq_some {k : Nibble} (h : lowestKey s.keys = some k) :
    s.keyCapture = { s with kwKey := k, kwValid := true } := by
  rw [State.keyCapture, h]

theorem keyRelease_of_down (h : s.keyDown s.kwKey.toNat = true) : s.keyRelease x = s := if_pos h

theorem keyRelease_of_up (h : s.keyDown s.kwKey.toNat = false) :
    s.keyRelease x = { s.advance.setReg x (s.kwKey.setWidth 8) with kwValid := false } :=
  if_neg (Bool.eq_false_iff.mp h)

/-- The number of the released key is delivered to V[X], and to no other register (R123). -/
theorem reg_keyRelease_of_up_toNat (h : s.keyDown s.kwKey.toNat = false) (r : RegIdx) :
    ((s.keyRelease x).reg r).toNat = if r = x then s.kwKey.toNat else (s.reg r).toNat := by
  have hreg : (s.keyRelease x).reg r = if r = x then s.kwKey.setWidth 8 else s.reg r := by
    rw [keyRelease_of_up h]
    exact reg_setReg s.advance x r _
  rw [hreg, apply_ite BitVec.toNat, BitVec.toNat_setWidth_of_le (by decide)]

end KeyWait

/-- Settles O52: with no key captured by `lowestKey_zero` and `lowestKey_eq_some`, with one by the two ends of
`keyRelease`. -/
theorem keyWaitCapturesThenDeliversOnRelease : Obligations.KeyWaitCapturesThenDeliversOnRelease := by
  refine ⟨encodedAs_x (fun _ _ => Iff.rfl) (fun _ => rfl) fun _ => rfl, fun x s =>
    ⟨fun hfree hnone => ?wait, fun hfree k hdown hlowest => ?capture, fun hheld hdown => ?hold,
      fun hheld hup => ?release⟩⟩
  case wait =>
    have hlow : lowestKey s.keys = none := by rw [hnone, lowestKey_zero]
    rw [exec_ldVxK_of_not_kwValid hfree, keyCapture_of_lowestKey_eq_none hlow]
  case capture =>
    rw [exec_ldVxK_of_not_kwValid hfree, keyCapture_of_lowestKey_eq_some (lowestKey_eq_some hdown hlowest)]
  case hold => rw [exec_ldVxK_of_kwValid hheld, keyRelease_of_down hdown]
  case release =>
    refine ⟨_, exec_ldVxK_of_kwValid hheld, reg_keyRelease_of_up_toNat hup, ?_⟩
    rw [keyRelease_of_up hup]
    rfl

end Sys2Proof.Machine
end

section
/-! # Faults and execution modes (spec/60_exceptions.md)

A `Step` in Running is described against the table of R131 once, by `fetchExecute_stepFault_cases`: it enters the
fault the table gives, or it leaves `MODE` and the fault record alone. The other events are read off `perform`. -/

namespace Sys2Proof.Machine

open Sys2Proof.Claim

/-! ### Fault entry -/

section Fault
variable {s t : State} {i : Instr} {w : Word}

/-- The fetch comes first: beyond the memory there is no instruction to fault (R133). -/
theorem stepFault_of_out_of_range (h : memSize < s.pc.toNat + 2) :
    stepFault s = some (.memoryFault, max s.pc.toNat memSize) := by
  simp only [memSize] at h ⊢
  by_cases hpc : s.pc.toNat > 0xFFF
  · rw [stepFault, if_pos hpc, Nat.max_eq_left hpc]
  · have hlast : s.pc.toNat = 0xFFF := by omega
    rw [stepFault, if_neg hpc, hlast]
    rfl

/-- After a fetch the table is asked about the fetched instruction, if the word is one (R133). -/
theorem stepFault_of_fetch (h : s.pc.toNat + 2 ≤ memSize) (hw : s.fetch = .ok w) :
    stepFault s = (decodeWord w).bind (faultOf · s) := by
  simp only [memSize] at h
  cases (fetch_ok h).symm.trans hw
  rw [stepFault, if_neg (by omega), if_neg (by omega)]
  cases decodeWord (wordOfBytes (s.byteAt s.pc.toNat) (s.byteAt (s.pc.toNat + 1))) <;> rfl

/-- The effect of an instruction that does not fault leaves `MODE` and the fault record alone. -/
theorem Effect.mode_record (e : Effect s i t) :
    t.mode = s.mode ∧ t.fcause = s.fcause ∧ t.fpc = s.fpc ∧ t.finfo = s.finfo := by
  cases e <;> exact ⟨rfl, rfl, rfl, rfl⟩

/-- Everything a `Step` in Running can do, by the table of R131. -/
theorem fetchExecute_stepFault_cases (s : State) :
    (∃ k info, stepFault s = some (k, info) ∧ s.fetchExecute = .next (faulted s k info)) ∨
    (stepFault s = none ∧ ∃ t, s.fetchExecute = .next t ∧
      t.mode = s.mode ∧ t.fcause = s.fcause ∧ t.fpc = s.fpc ∧ t.finfo = s.finfo) := by
  obtain ⟨hpc, e⟩ | ⟨hpc, w, hw, ⟨i, hi, e⟩ | ⟨hi, e⟩⟩ := fetchExecute_cases s
  · exact .inl ⟨_, _, stepFault_of_out_of_range hpc, e⟩
  · have htable : stepFault s = faultOf i s := by rw [stepFault_of_fetch hpc hw, hi]; rfl
    rw [htable, e]
    cases hf : faultOf i s with
    | some fault => exact .inl ⟨_, _, rfl, exec_of_faultOf_eq_some hf⟩
    | none =>
      obtain ⟨t, ht, heffect⟩ := exec_of_faultOf_eq_none hf
      exact .inr ⟨rfl, t, ht, heffect.mode_record⟩
  · have htable : stepFault s = none := by rw [stepFault_of_fetch hpc hw, hi]; rfl
    exact .inr ⟨htable, _, e, rfl, rfl, rfl, rfl⟩

end Fault

/-- Settles O16: each case of `fetchExecute_stepFault_cases`, from the state in which the `Step` began. -/
theorem faultingStepDiscardsEveryWriteAndRecords : Obligations.FaultingStepDiscardsEveryWriteAndRecords := by
  refine ⟨fun s keys rnd he hm => ?entry, fun s => ?code⟩
  case entry =>
    rw [step_of_running he hm]
    obtain ⟨k, info, hf, e⟩ | ⟨hf, t, e, hmode, hrecord⟩ := fetchExecute_stepFault_cases (stepBegun s keys rnd)
    · rw [hf]; exact e
    · rw [hf]; exact ⟨t, e, hmode.trans hm, hrecord⟩
  case code =>
    rw [State.fcauseCode]
    cases s.fcause with
    | none => rfl
    | some k => cases k <;> rfl

/-! ### The execution modes -/

/-- An event is performed on the state from which it has been taken. -/
theorem step_eq_perform {s : State} {e : HostEvent} (he : s.nextEvent = e) : step s = perform e (eventTaken s) := by
  rw [step_eq, he, takeEvent_eq]
  rfl

/-- Settles O26: Pause, Resume and Start by their definitions; what Paused freezes is `step_of_not_running`, O24
and O27. -/
theorem pauseResumeAndStart : Obligations.PauseResumeAndStart := by
  refine fun s => ⟨fun he => ⟨fun hm => ?pause, fun hm => ?pauseElse⟩,
    fun he => ⟨fun hm => ?resume, fun hm => ?resumeElse⟩, step_eq_perform,
    fun hm keys rnd he => step_of_not_running he (hm.trans_ne nofun),
    fun hm he => (tickSamplesAudioThenCountsDown s he).2 (hm.trans_ne nofun),
    fun _ he => flushOnlyClearsDirty.1 s he⟩
  case pause | resume => exact (step_eq_perform he).trans (congrArg Host.Outcome.next (if_pos hm))
  case pauseElse | resumeElse => exact (step_eq_perform he).trans (congrArg Host.Outcome.next (if_neg hm))

/-- A `Load` of an image that fits leaves the machine in Running (R152). -/
theorem doLoad_mode {image : List Byte} (h : image.length ≤ imageCap) (s : State) :
    (doLoad image s).mode = .running := by
  rw [doLoad, if_neg (Nat.not_lt_of_le h)]
  rfl

/-- Settles O15: the way in is the `Step` of O14, which in Running halts only by the table of R131; in Halted the
events are those of O24, O26 and O27, and the two resets. -/
theorem haltedIsEnteredByFaultAndLeftByReset : Obligations.HaltedIsEnteredByFaultAndLeftByReset := by
  refine ⟨fun s hm => ?halted, fun s t hm h ht => ?entry⟩
  case halted =>
    have hrun : s.mode ≠ .running := hm.trans_ne nofun
    obtain ⟨hpause, hresume, hstart, -⟩ := pauseResumeAndStart s
    refine ⟨fun keys rnd he => step_of_not_running he hrun, ?frozen, flushOnlyClearsDirty.1 s,
      fun he => ⟨_, step_eq_perform he, rfl⟩, fun image he hl => ⟨_, step_eq_perform he, doLoad_mode hl _⟩⟩
    case frozen =>
      rintro (he | he | he | he)
      · exact (tickSamplesAudioThenCountsDown s he).2 hrun
      · exact (hpause he).2 hrun
      · exact (hresume he).2 (hm.trans_ne nofun)
      · exact hstart he
  case entry =>
    obtain hs | ⟨-, -, hp⟩ | ⟨-, -, hr⟩ | ⟨⟨keys, rnd, he⟩, hrun, -⟩ | ⟨-, hr⟩ | ⟨image, -, -, hr⟩ :=
      modeChangesOnlyAsListed s t h
    · exact absurd (hs.symm.trans ht) hm
    · exact nomatch hp.symm.trans ht
    · exact nomatch hr.symm.trans ht
    · refine ⟨keys, rnd, he, fun hnone => ?_⟩
      have hstay := faultingStepDiscardsEveryWriteAndRecords.1 s keys rnd he hrun
      rw [hnone] at hstay
      obtain ⟨u, hu, humode, -⟩ := hstay
      cases hu.symm.trans h
      exact nomatch humode.symm.trans ht
    · exact nomatch hr.symm.trans ht
    · exact nomatch hr.symm.trans ht

end Sys2Proof.Machine
end

section
/-! # Reset and load (spec/70_reset_and_hazards.md)

What `Reset` leaves in memory and in the vectors is said of `doReset` once, for any state; a `Load` that fits is that
reset with the new image in place. -/

namespace Sys2Proof.Machine

open Sys2Proof.Claim

section Reset
variable (s : State)

/-- After `Reset` memory reads as the font, zero, the image and zero (R25, R37). -/
theorem byteAt_doReset (a : Nat) : (doReset s).byteAt a =
    if h : a < 80 then s.config.font[a] else if 0x200 ≤ a then (s.image[a - 0x200]?).getD 0 else 0 := by
  refine (Memory.read_ofBytes a).trans ?_
  simp only [entryAddr, Config.background, fontSize]
  by_cases hfont : a < 80
  · rw [dif_neg (by omega), dif_pos hfont, dif_pos hfont]
    rfl
  · rw [dif_neg hfont, dif_neg hfont]
    by_cases hentry : 0x200 ≤ a
    · rw [if_pos hentry]
      by_cases himage : a - 0x200 < s.image.length
      · rw [dif_pos ⟨hentry, himage⟩, List.getElem?_eq_getElem himage, Option.getD_some]
      · rw [dif_neg (not_and_of_not_right _ himage), List.getElem?_eq_none (Nat.le_of_not_lt himage), Option.getD_none]
    · rw [dif_neg (not_and_of_not_left _ hentry), if_neg hentry]

/-- After `Reset` every register, stack entry and cell is 0 (R25). -/
theorem doReset_zeroes : (∀ r, (doReset s).reg r = 0) ∧ (∀ k, k < 12 → (doReset s).stack[k]? = some 0) ∧
    ∀ y x, y < 32 → x < 64 → (doReset s).pixel y x = false :=
  ⟨fun r => Vector.getElem_replicate r.isLt, fun _ hk => (Vector.getElem?_replicate ..).trans (if_pos hk),
    fun y x _ _ => Framebuffer.get_blank y x⟩

end Reset

/-- Settles O21: the event is performed as `doReset`, in whatever mode. -/
theorem resetEventRestoresEveryElement : Obligations.ResetEventRestoresEveryElement := by
  intro s he
  obtain ⟨hreg, hstack, hpixel⟩ := doReset_zeroes (eventTaken s)
  exact ⟨_, step_eq_perform he, fun a _ => byteAt_doReset (eventTaken s) a, hreg, hstack, hpixel, rfl⟩

/-- Settles O23: on either side of the bound, by the two branches of `doLoad`; the report is not among the elements
that `Reset` restores. -/
theorem loadReplacesTheImageOrChangesNothing : Obligations.LoadReplacesTheImageOrChangesNothing := by
  refine fun s image he => ⟨fun hlong => ?tooLong, fun hfits => ?fits⟩
  case tooLong => exact (step_eq_perform he).trans (congrArg Host.Outcome.next (if_pos hlong))
  case fits =>
    have hload : step s = .next { doReset { eventTaken s with image := image } with loadReport := some .success } :=
      (step_eq_perform he).trans (congrArg Host.Outcome.next (if_neg (Nat.not_lt_of_le hfits)))
    obtain ⟨hreg, hstack, hpixel⟩ := doReset_zeroes { eventTaken s with image := image }
    exact ⟨_, hload, fun a _ => byteAt_doReset { eventTaken s with image := image } a, hreg, hstack, hpixel, rfl⟩

end Sys2Proof.Machine
end
